-- ==== Sys2Proof/Word.lean ====
section
/-!
DEFINITION. The words the block's interfaces carry: bytes (memory cells, data, half-rows, pixels) and 16-bit words
(memory addresses, port addresses, key codes).

Bits are numbered from 0 at the least significant bit (00_scope.md R8); `v[hi:lo]` is `BitVec.extractLsb' lo (hi-lo+1) v`.
-/

namespace Sys2Proof

/-- 8 bits: a memory cell, a data byte, a keyboard half-row, a pixel (00_scope.md R6, BYTE). -/
abbrev Byte := BitVec 8

/-- 16 bits: a memory address, a port address or a key code (00_scope.md R6, PORT_ADDR_BITS). -/
abbrev Word := BitVec 16

/-- The bytes of one call presented at the block's interface (the model's own wire form, notes/assumptions/1.md). -/
abbrev Packet := List Byte

end Sys2Proof
end

