-- ==== Sys2Proof/Syntax.lean ====
section
/-!
DEFINITION. The block's instructions: one constructor per row of spec/opcode_table.json, in the table's order. The block
has no instruction set; its instructions are the transactions on its interfaces (00_scope.md R2; 30_encoding.md R80).

Addresses, port addresses and data are unbounded naturals: the interface may present them wider than the field, and
the meaning reduces them (20_memory.md R56, R57). A key code is 16 bits (30_encoding.md R86).
-/

namespace Sys2Proof

/-- The 20 transaction forms of spec/opcode_table.json. -/
inductive Instr where
  /-- MRD a: the engine's memory read (R120). -/
  | mrd (a : Nat)
  /-- MWR a, v: the engine's memory write (R121). -/
  | mwr (a v : Nat)
  /-- IORD p with p[7:0] = 0xFE: the keyboard multiplexer (R141). -/
  | iordUla (p : Nat)
  /-- IORD p on any other port (R142). -/
  | iordNone (p : Nat)
  /-- IOWR p, v with p[7:0] = 0xFE: the border and ear latch (R143). -/
  | iowrUla (p v : Nat)
  /-- IOWR p, v on any other port (R144). -/
  | iowrNone (p v : Nat)
  /-- SETDONE: the engine's terminal signal (R283). -/
  | setdone
  /-- PEEK a: the host's memory read (R122). -/
  | peek (a : Nat)
  /-- POKE a, v: the host's memory write, answering the previous byte (R123). -/
  | poke (a v : Nat)
  /-- KEYDN k with a valid half-row (R160). -/
  | keydnRow (k : Word)
  /-- KEYDN k with half-row 8 or above (R162). -/
  | keydnIgn (k : Word)
  /-- KEYUP k with a valid half-row (R161). -/
  | keyupRow (k : Word)
  /-- KEYUP k with half-row 8 or above (R162). -/
  | keyupIgn (k : Word)
  /-- LOAD s: the load of a snapshot image (R210). -/
  | load (s : List Byte)
  /-- FRAME b: the render of one frame into the buffer b, of length L = b.length (R250). -/
  | frame (b : List Byte)
  /-- INIT: the creation of a machine context (R280). -/
  | init
  /-- FREE: the destruction of the selected machine context (R281). -/
  | free
  /-- VSYNC: the frame interrupt, inside FRAME (R253). -/
  | vsync
  /-- EXEC n: one Execute call of n cycles, inside FRAME; n is an `Int` (R256). -/
  | exec (n : Int)
  /-- LINE y: the render of scanline y, inside FRAME (R180). -/
  | line (y : Nat)
  deriving DecidableEq, Repr

end Sys2Proof
end

