-- ==== Sys2Proof/WellFormed.lean ====
section
/-!
DEFINITION. What each row of the opcode table requires of its operand: the row's own mask and match where it has one, the
absence of an earlier match where it comes second on its channel (30_encoding.md R92), and the range of a scanline
index (43_renderer.md R180).
-/

namespace Sys2Proof

/-- The operand word of a port transaction meets the ULA rows' mask 0x00FF, match 0x00FE. -/
def Instr.ulaWord (p : Nat) : Bool := (BitVec.ofNat 16 p &&& 0x00FF#16) == 0x00FE#16

/-- A key code meets the `_ROW` rows' mask 0xF800, match 0x0000. -/
def Instr.rowWord (k : Word) : Bool := (k &&& 0xF800#16) == 0x0000#16

/-- The check of one instruction: its operand belongs to its row of the table. -/
def Instr.wellFormed : Instr → Bool
  | .mrd _ => true
  | .mwr _ _ => true
  | .iordUla p => Instr.ulaWord p
  | .iordNone p => !Instr.ulaWord p
  | .iowrUla p _ => Instr.ulaWord p
  | .iowrNone p _ => !Instr.ulaWord p
  | .setdone => true
  | .peek _ => true
  | .poke _ _ => true
  | .keydnRow k => Instr.rowWord k
  | .keydnIgn k => !Instr.rowWord k
  | .keyupRow k => Instr.rowWord k
  | .keyupIgn k => !Instr.rowWord k
  | .load _ => true
  | .frame _ => true
  | .init => true
  | .free => true
  | .vsync => true
  | .exec _ => true
  | .line y => decide (y ≤ 311)

end Sys2Proof
end

