-- ==== Sys2Proof/Decode.lean ====
section
/-!
DEFINITION. From the bytes of a call to the instruction, and back.

The first level is the spec's: a decoder separates transactions by channel and, within a channel, the first row of
the table whose `(operand & mask) == match` wins (30_encoding.md R92). The second level, how a channel and its operands
are laid out as bytes, is the model's own wire form, since the spec gives none (notes/assumptions/1.md):

  byte 0, byte 1   the operand word of the table, low byte first: address, port address, key code or scanline index
  byte 2           the channel's number, 1 to 16 in the order R92 lists the channels; 0 where the call names none
  byte 3 ..        the fields of the channel's format: MEM and PORT the part of the address above bit 15 and then,
                   for a write, the data; CYCLES the request; SNAP and BUF the bytes themselves; other formats nothing

A number is written seven bits a byte, lowest first, bit 7 set on every byte but the last; a byte that is not sent
counts as zero.
-/

namespace Sys2Proof

/-- The channels of 30_encoding.md R92, in the order it lists them. -/
inductive Channel where
  | engineMemRead | engineMemWrite | enginePortRead | enginePortWrite | engineSide
  | hostPeek | hostPoke | hostKeydown | hostKeyup | hostLoad | hostFrame | hostInit | hostFree
  | internalVsync | internalExec | internalLine
  deriving DecidableEq, Repr

/-- Why a packet is no call: the wire form's own rejections; no operand VALUE of the spec is ever rejected (R93). -/
inductive DecodeError where
  /-- Byte 2 is above 16. -/
  | unknownChannel (n : Byte)
  /-- Bytes follow the last field of the channel's format. -/
  | trailingBytes
  /-- The operand word is not zero on a channel that has none. -/
  | unusedWord
  /-- A LINE call's scanline index is above 311 (R180). -/
  | scanlineRange
  deriving DecidableEq, Repr

/-! ### Level 1: the rows of a channel (30_encoding.md R92). -/

/-- `(operand & mask) == match`. -/
def matchesRow (w mask value : Word) : Bool := (w &&& mask) == value

/-- The ULA rows' test on a port address of any width, reduced to 16 bits first (R57, R140). -/
def isUlaPort (p : Nat) : Bool := matchesRow (BitVec.ofNat 16 p) 0x00FF 0x00FE

/-- The `_ROW` rows' test on a key code (R86). -/
def isRowCode (k : Word) : Bool := matchesRow k 0xF800 0x0000

/-- The engine's port-read channel: IORD_ULA before IORD_NONE. -/
def portRead (p : Nat) : Instr := if isUlaPort p then .iordUla p else .iordNone p

/-- The engine's port-write channel: IOWR_ULA before IOWR_NONE. -/
def portWrite (p v : Nat) : Instr := if isUlaPort p then .iowrUla p v else .iowrNone p v

/-- The host's key-down channel: KEYDN_ROW before KEYDN_IGN. -/
def keyDown (k : Word) : Instr := if isRowCode k then .keydnRow k else .keydnIgn k

/-- The host's key-up channel: KEYUP_ROW before KEYUP_IGN. -/
def keyUp (k : Word) : Instr := if isRowCode k then .keyupRow k else .keyupIgn k

/-! ### Level 2: the wire form. -/

/-- Byte i of a packet; a byte that is not sent counts as zero. -/
def byteAt (bs : List Byte) (i : Nat) : Byte := bs[i]?.getD 0

/-- A number, seven bits a byte, lowest first; answers it and the bytes after it. -/
def readVar : List Byte → Nat × List Byte
  | [] => (0, [])
  | b :: bs =>
    if b.toNat < 128 then (b.toNat, bs)
    else (b.toNat - 128 + 128 * (readVar bs).1, (readVar bs).2)

/-- `writeVar` with fuel; any fuel of at least n writes the whole number. -/
def writeVarFuel : Nat → Nat → List Byte
  | 0, n => [BitVec.ofNat 8 n]
  | fuel + 1, n =>
    if n < 128 then [BitVec.ofNat 8 n]
    else BitVec.ofNat 8 (128 + n % 128) :: writeVarFuel fuel (n / 128)

/-- A number's bytes. -/
def writeVar (n : Nat) : List Byte := writeVarFuel n n

/-- An `Int` as a number: 0, -1, 1, -2, 2, … -/
def intToNat : Int → Nat
  | .ofNat n => 2 * n
  | .negSucc n => 2 * n + 1

/-- Back from `intToNat`. -/
def natToInt (n : Nat) : Int := if n % 2 = 0 then .ofNat (n / 2) else .negSucc (n / 2)

/-- The number of a channel on the wire. -/
def Channel.number : Channel → Byte
  | .engineMemRead => 1 | .engineMemWrite => 2 | .enginePortRead => 3 | .enginePortWrite => 4
  | .engineSide => 5 | .hostPeek => 6 | .hostPoke => 7 | .hostKeydown => 8
  | .hostKeyup => 9 | .hostLoad => 10 | .hostFrame => 11 | .hostInit => 12
  | .hostFree => 13 | .internalVsync => 14 | .internalExec => 15 | .internalLine => 16

/-- The channel of a bare operand word, for a call that names none: that of the first row of the opcode table with a
mask of its own that the word meets, else that of the table's first row (notes/assumptions/2.md). -/
def bareChannel (w : Word) : Channel :=
  if matchesRow w 0x00FF 0x00FE then .enginePortRead
  else if matchesRow w 0xF800 0x0000 then .hostKeydown
  else .engineMemRead

/-- The channel byte 2 names, the operand word being w. -/
def channelOf (n : Byte) (w : Word) : Option Channel :=
  match n.toNat with
  | 0 => some (bareChannel w)
  | 1 => some .engineMemRead | 2 => some .engineMemWrite | 3 => some .enginePortRead
  | 4 => some .enginePortWrite | 5 => some .engineSide | 6 => some .hostPeek
  | 7 => some .hostPoke | 8 => some .hostKeydown | 9 => some .hostKeyup
  | 10 => some .hostLoad | 11 => some .hostFrame | 12 => some .hostInit
  | 13 => some .hostFree | 14 => some .internalVsync | 15 => some .internalExec
  | 16 => some .internalLine
  | _ => none

/-- The operand word of a packet. -/
def packetWord (bs : Packet) : Word := byteAt bs 1 ++ byteAt bs 0

/-- An instruction if no byte is left over. -/
def endOfPacket (rest : List Byte) (i : Instr) : Except DecodeError Instr :=
  if rest.isEmpty then .ok i else .error .trailingBytes

/-- An address of any width: the operand word, then the part above bit 15. -/
def decodeAddr (w : Word) (rest : List Byte) (mk : Nat → Instr) : Except DecodeError Instr :=
  endOfPacket (readVar rest).2 (mk (w.toNat + 65536 * (readVar rest).1))

/-- An address and a data value, each of any width. -/
def decodeAddrData (w : Word) (rest : List Byte) (mk : Nat → Nat → Instr) : Except DecodeError Instr :=
  endOfPacket (readVar (readVar rest).2).2
    (mk (w.toNat + 65536 * (readVar rest).1) (readVar (readVar rest).2).1)

/-- A format without an operand word. -/
def decodeNoWord (w : Word) (r : Except DecodeError Instr) : Except DecodeError Instr :=
  if w = 0 then r else .error .unusedWord

/-- The fields of one channel's format. -/
def decodeOn (c : Channel) (w : Word) (rest : List Byte) : Except DecodeError Instr :=
  match c with
  | .engineMemRead => decodeAddr w rest .mrd
  | .engineMemWrite => decodeAddrData w rest .mwr
  | .enginePortRead => decodeAddr w rest portRead
  | .enginePortWrite => decodeAddrData w rest portWrite
  | .engineSide => decodeNoWord w (endOfPacket rest .setdone)
  | .hostPeek => decodeAddr w rest .peek
  | .hostPoke => decodeAddrData w rest .poke
  | .hostKeydown => endOfPacket rest (keyDown w)
  | .hostKeyup => endOfPacket rest (keyUp w)
  | .hostLoad => decodeNoWord w (.ok (.load rest))
  | .hostFrame => decodeNoWord w (.ok (.frame rest))
  | .hostInit => decodeNoWord w (endOfPacket rest .init)
  | .hostFree => decodeNoWord w (endOfPacket rest .free)
  | .internalVsync => decodeNoWord w (endOfPacket rest .vsync)
  | .internalExec => decodeNoWord w (endOfPacket (readVar rest).2 (.exec (natToInt (readVar rest).1)))
  | .internalLine =>
    if w.toNat ≤ 311 then endOfPacket rest (.line w.toNat) else .error .scanlineRange

/-- The decoder: total on every packet, rejecting by name. -/
def decode (bs : Packet) : Except DecodeError Instr :=
  match channelOf (byteAt bs 2) (packetWord bs) with
  | none => .error (.unknownChannel (byteAt bs 2))
  | some c => decodeOn c (packetWord bs) (bs.drop 3)

/-! ### The encoder. -/

/-- The operand word, low byte first, and the channel. -/
def encodeHead (w : Word) (c : Channel) : Packet :=
  [w.extractLsb' 0 8, w.extractLsb' 8 8, c.number]

/-- An address of any width on a channel. -/
def encodeAddr (c : Channel) (a : Nat) : Packet :=
  encodeHead (BitVec.ofNat 16 a) c ++ writeVar (a / 65536)

/-- The packet of an instruction. -/
def encode : Instr → Packet
  | .mrd a => encodeAddr .engineMemRead a
  | .mwr a v => encodeAddr .engineMemWrite a ++ writeVar v
  | .iordUla p => encodeAddr .enginePortRead p
  | .iordNone p => encodeAddr .enginePortRead p
  | .iowrUla p v => encodeAddr .enginePortWrite p ++ writeVar v
  | .iowrNone p v => encodeAddr .enginePortWrite p ++ writeVar v
  | .setdone => encodeHead 0 .engineSide
  | .peek a => encodeAddr .hostPeek a
  | .poke a v => encodeAddr .hostPoke a ++ writeVar v
  | .keydnRow k => encodeHead k .hostKeydown
  | .keydnIgn k => encodeHead k .hostKeydown
  | .keyupRow k => encodeHead k .hostKeyup
  | .keyupIgn k => encodeHead k .hostKeyup
  | .load s => encodeHead 0 .hostLoad ++ s
  | .frame b => encodeHead 0 .hostFrame ++ b
  | .init => encodeHead 0 .hostInit
  | .free => encodeHead 0 .hostFree
  | .vsync => encodeHead 0 .internalVsync
  | .exec n => encodeHead 0 .internalExec ++ writeVar (intToNat n)
  | .line y => encodeHead (BitVec.ofNat 16 y) .internalLine

/-! ### The opcode table's words. -/

/-- The packet of a table word: the word's own bytes, lowest first; every byte after them is zero, so a 16-bit word
names no channel and one of 24 bits or more carries it in bits 23..16. -/
def tablePacket (nbits w : Nat) : Packet :=
  (List.range ((nbits + 7) / 8)).map fun i => BitVec.ofNat 8 (w / 256 ^ i)

/-- The instruction the decoder reads from a table word of nbits bits. -/
def decodeTableWord (nbits w : Nat) : Option Instr := (decode (tablePacket nbits w)).toOption

end Sys2Proof
end

