-- ==== Sys2Proof/Config.lean ====
section
/-!
DEFINITION. What the spec leaves to the machine: the open parameters of 00_scope.md R7 (arguments of the model, held as the
constant field `cfg` of State), and the free values, constants without a body.
-/

namespace Sys2Proof

/-! Open parameters (00_scope.md R7). -/

/-- UNKNOWN_PAGE_POLICY: what a page block with an unrecognised page id does (92_eei_decisions.md D19). -/
inductive PagePolicy where
  /-- The data is written at address 0x0000 (the default). -/
  | loadAt0
  /-- The block is consumed and writes nothing, like page 0. -/
  | skip
  deriving DecidableEq, Repr

/-- SNAP_LAYOUT: the byte positions, bit positions and byte order of the snapshot header fields that the source
names but does not place (92_eei_decisions.md D17; 30_encoding.md R97). -/
structure SnapLayout where
  /-- Offset of the header's 16-bit PC field. -/
  pcAt : Nat
  /-- Offset of the 16-bit extension-header length E, which counts the bytes after itself. -/
  extLenAt : Nat
  /-- Offset of the true PC in an extended image. -/
  extPcAt : Nat
  /-- Lowest bit of the 3-bit border colour in header byte 12. -/
  borderLow : Nat
  /-- The bit of header byte 12 that carries bit 7 of R. -/
  rBit7At : Nat
  /-- 16-bit fields are least-significant byte first. -/
  lsbFirst : Bool
  deriving DecidableEq, Repr

/-- The block's open parameters (00_scope.md R7 (a) to (d)); R7(e), the engine, is an input of State. -/
structure Config where
  /-- IRQ_MODE_ARG, handed unchanged to the engine at every VSYNC (D10, OPEN). -/
  irqModeArg : Nat
  /-- IRQ_CYCLES_CHARGED: the interrupt prologue's cycles become the carry before scanline 0 (D9). -/
  irqCyclesCharged : Bool
  /-- UNKNOWN_PAGE_POLICY (D19). -/
  unknownPage : PagePolicy
  /-- SNAP_LAYOUT (D17). -/
  layout : SnapLayout
  deriving DecidableEq, Repr

/-! Free values: constants without a body, so that no proof can use what they are. -/

/-- FREE VALUE. IRQ_MODE_ARG is OPEN: no source gives it (D10; 93_implementation_defined.md U4; notes/assumptions/9.md). -/
opaque openIrqModeArg : Nat

/-- FREE VALUE. The cycles the engine reports for the k-th engine call of the machine's life when the engine input
of State lists no call for it (93_implementation_defined.md U6: any value in the naturals; notes/assumptions/4.md). -/
opaque freeCycles : Nat → Nat

end Sys2Proof
end

