-- ==== Sys2Proof/Machine/Params.lean ====
section
/-!
DEFINITION. The numbers the meanings are written with: the fixed parameters of 00_scope.md R6, the reset values of 10_state.md
R37, and the defaults of the open parameters (00_scope.md R7).
-/

namespace Sys2Proof

/-! Fixed parameters (00_scope.md R6). -/

/-- FRAME_W, pixels per scanline. -/
@[simp, reducible] def frameW : Nat := 352
/-- FRAME_H and LINES_PER_FRAME, scanlines per frame. -/
@[simp, reducible] def frameH : Nat := 312
/-- FRAME_BYTES = 352 x 312. -/
@[simp, reducible] def frameBytes : Nat := 109824
/-- BORDER_LR, border pixels left and right of the bitmap. -/
@[simp, reducible] def borderLR : Nat := 48
/-- BITMAP_TOP, the first bitmap scanline (90_conflicts.md C1: 48, not 64). -/
@[simp, reducible] def bitmapTop : Nat := 48
/-- The first scanline of the bottom border band: BITMAP_BOTTOM + 1. -/
@[simp, reducible] def bottomBorderTop : Nat := 240
/-- Character cells per bitmap row. -/
@[simp, reducible] def cellsPerRow : Nat := 32
/-- CYCLES_PER_LINE, T-states the sequencer asks for per scanline. -/
@[simp, reducible] def cyclesPerLine : Int := 224
/-- SNAP_HEADER_BYTES. -/
@[simp, reducible] def snapHeaderBytes : Nat := 30
/-- SNAP_RAW_PAGE_BYTES. -/
@[simp, reducible] def snapPageBytes : Nat := 16384
/-- Bytes of a classic snapshot's memory image, 0x4000 to 0xFFFF (44_snapshot.md R212(b), R217). -/
@[simp, reducible] def snapClassicBytes : Nat := 49152
/-- BITMAP_BASE, where a classic payload starts too. -/
@[simp, reducible] def bitmapBase : Nat := 0x4000
/-- ATTR_BASE. -/
@[simp, reducible] def attrBase : Nat := 0x5800

/-! Reset values (10_state.md R37; the spec's own D6 and D7; notes/assumptions/10.md). An unlisted memory cell reads as
0x00 by `Memory`'s canonical form (D5). -/

/-- kb[i], every i: no key held. -/
@[simp, reducible] def resetHalfRow : Byte := 0xFF#8
/-- border. -/
@[simp, reducible] def resetBorder : BitVec 3 := 0#3
/-- ear. -/
@[simp, reducible] def resetEar : Bool := false
/-- frameCounter. -/
@[simp, reducible] def resetFrameCounter : Nat := 0
/-- done. -/
@[simp, reducible] def resetDone : Bool := false

/-! Defaults of the open parameters. -/

/-- The SNAP_LAYOUT default of 30_encoding.md R97. -/
def SnapLayout.standard : SnapLayout :=
  { pcAt := 6, extLenAt := 30, extPcAt := 32, borderLow := 1, rBit7At := 0, lsbFirst := true }

/-- The defaults of 92_eei_decisions.md D9, D17 and D19; the interrupt's mode argument stays free (D10). -/
def Config.standard : Config :=
  { irqModeArg := openIrqModeArg, irqCyclesCharged := false, unknownPage := .loadAt0, layout := .standard }

end Sys2Proof
end

