-- ==== Sys2Proof/Machine/State.lean ====
section
/-!
DEFINITION. The state of the machine, plain data: the block's record `MachineState` (10_state.md R20), the other contexts
of the process (46_lifecycle.md R282), the values that exist only while a FRAME runs (R30, R31), the host's pixel
buffer (R33), the last result, and the inputs: the calls presented to the block and what the engine does when called.
-/

namespace Sys2Proof.Machine

/-- Memory in canonical form: (address, byte) pairs with rising addresses; an address that is not listed reads as 0x00,
the reset value of every cell (10_state.md R26), and no listed byte is 0x00. -/
abbrev Memory := List Host.Cell

/-- The addresses rise strictly from lo on and stay below 65536, and no listed byte is zero. -/
def Memory.wfFrom : Nat → Memory → Bool
  | _, [] => true
  | lo, (a, v) :: m => decide (lo ≤ a) && decide (a < 65536) && !(v == 0#8) && Memory.wfFrom (a + 1) m

/-- The canonical form. -/
def Memory.wf (m : Memory) : Bool := Memory.wfFrom 0 m

/-- What the block has handed to the external CPU engine. The CPU's own state is opaque to the block (R20; 93 U8);
what the block can say of it is the sequence of engine operations that made it (notes/assumptions/5.md). -/
inductive CpuEvent where
  /-- `Engine.Reset()`. -/
  | reset
  /-- `Engine.SetRegisters(header, pc)` with the 30 header bytes, the effective PC, bit 7 of R and the extension
  header (44_snapshot.md R223). -/
  | setRegisters (header : List Byte) (pc : Word) (rBit7 : Bool) (ext : List Byte)
  /-- `Engine.Interrupt(mode)`, the bytes its reads were answered with, and the cycles it returned (R253). -/
  | interrupt (mode : Nat) (replies : List Byte) (used : Nat)
  /-- `Engine.Execute(req)`, the bytes its reads were answered with, and the cycles it returned (R256). -/
  | execute (req : Int) (replies : List Byte) (used : Nat)
  deriving DecidableEq, Repr

/-- The block's state record (10_state.md R20), field for field. -/
structure MachineState where
  /-- The opaque CPU state, as the engine operations since the last `Engine.Reset`, newest first. -/
  cpu : List CpuEvent
  /-- mem[0..65535] (R26). -/
  mem : Memory
  /-- kb[0..7], bit j of a half-row 0 while key j is held (R25). -/
  kb : Vector Byte 8
  /-- The border colour latch (R21). -/
  border : BitVec 3
  /-- The ear latch (R22). -/
  ear : Bool
  /-- Frames rendered since the last re-initialisation, without wrap (R23). -/
  frameCounter : Nat
  /-- The terminal flag (R24). -/
  done : Bool
  deriving DecidableEq, Repr

/-- The reset values of 10_state.md R37 and 70_reset_and_hazards.md R331. -/
def MachineState.reset : MachineState :=
  { cpu := [.reset], mem := [], kb := Vector.replicate 8 resetHalfRow, border := resetBorder, ear := resetEar,
    frameCounter := resetFrameCounter, done := resetDone }

/-- Which internal step of a FRAME comes next (60_exceptions.md R306). -/
inductive Stage where
  | vsync | exec | line
  deriving DecidableEq, Repr

/-- What exists only while a FRAME runs (10_state.md R30, R31). -/
structure Frame where
  /-- The internal step that comes next. -/
  stage : Stage
  /-- The scanline index; 312 when every scanline has been rendered. -/
  y : Nat
  /-- The surplus or deficit of cycles of the previous scanline. -/
  carry : Int
  deriving DecidableEq, Repr

/-- One transaction the engine issues during an engine call: MRD, MWR, IORD, IOWR or SETDONE and no other (R255). -/
inductive BusOp where
  | mrd (a : Nat)
  | mwr (a v : Nat)
  | iord (p : Nat)
  | iowr (p v : Nat)
  | setdone
  deriving DecidableEq, Repr

/-- What the engine does in one Interrupt or Execute call: any finite sequence of bus transactions, and the natural
number of cycles it returns (R253, R255). -/
structure EngineCall where
  ops : List BusOp
  used : Nat
  deriving DecidableEq, Repr

/-- One call presented at the block's interface: the context it is addressed to (none: the selected one) and its bytes. -/
structure Call where
  to? : Option Nat
  bytes : Packet
  deriving DecidableEq, Repr

/-- The result value of a transaction, where it has one (00_scope.md R11; 30_encoding.md R80). -/
inductive Result where
  /-- No result value. -/
  | none
  /-- A byte: MRD, IORD, PEEK, and the previous byte from POKE. -/
  | byte (b : Byte)
  /-- A natural number: FRAME's 0 or shortfall. -/
  | count (n : Nat)
  /-- A handle: INIT. -/
  | handle (h : Nat)
  deriving DecidableEq, Repr

/-- The whole machine. `m` is the spec's record; `frame` its frame-local values; `buf` the host's buffer; the fields
from `result` on are the model's own (INVENTORY.md, State). -/
structure State where
  /-- The selected context's record (R20). -/
  m : MachineState
  /-- The selected context exists: it has been created and not freed (R281). -/
  live : Bool
  /-- The selected context's handle (R20). -/
  handle : Nat
  /-- The other contexts that exist, by handle, rising (R282). -/
  parked : List (Nat × MachineState)
  /-- The handle the next INIT answers. -/
  nextHandle : Nat
  /-- y, carry and the next internal step, while a FRAME runs (R30, R31). -/
  frame : Option Frame
  /-- The host's pixel buffer, as the last FRAME left it (R33; 20_memory.md R50(d)). -/
  buf : List Byte
  /-- The last transaction's result. -/
  result : Result
  /-- The calls presented to the block and not yet taken, in the order they are made (R65). -/
  inbox : List Call
  /-- What the engine does in its next calls, in order (R255): ONE list for all contexts, in the order the calls are made,
  whichever context's engine is called. DESIGN CHOICE (notes/assumptions/4.md): the spec gives each instance its own
  engine (60_exceptions.md R316) and no form for its coming calls. -/
  engine : List EngineCall
  /-- How many engine calls have been made, in all contexts together: the argument of the free value `freeCycles`
  (DESIGN CHOICE, notes/assumptions/4.md). -/
  engineCalls : Nat
  /-- The open parameters (00_scope.md R7); no step changes them. -/
  cfg : Config
  deriving DecidableEq, Repr

/-- The block raises no exception, trap or fault (60_exceptions.md R300), so there is no reason to fault with: a type
without constructors. No step of the model faults. -/
inductive Fault where
  deriving DecidableEq, Repr

/-- The reasons the model gives a transaction no step. Each is safe: nothing can be proved of a state after it. -/
inductive Refusal where
  /-- Raised by `exec` for an instruction that has no meaning yet. Safe. -/
  | notModelled (mnemonic : String)
  /-- Raised by every transaction but INIT when the selected context does not exist (R281, R303). Safe. -/
  | freedHandle
  /-- Raised by every host transaction while a FRAME is in progress (20_memory.md R67; 45_frame.md R262). Safe. -/
  | hostDuringFrame
  /-- Raised by VSYNC, EXEC and LINE when no FRAME is in progress: they exist only inside FRAME and are not callable
  from outside (30_encoding.md R80). Safe. -/
  | outsideFrame
  /-- Raised by LOAD for an image that is not well formed (44_snapshot.md R212). Safe. -/
  | malformedSnapshot
  /-- Raised by LINE for a scanline index above 311, which R180 excludes; the decoder never gives one. Safe. -/
  | scanlineRange
  /-- Raised by `step` for a packet that the wire form does not admit (notes/assumptions/1.md). Safe. -/
  | undecodable (e : DecodeError)
  deriving DecidableEq, Repr

/-- Right after reset: the state INIT leaves (R331), with one context, handle 0, and no input yet. -/
def State.reset : State :=
  { m := .reset, live := true, handle := 0, parked := [], nextHandle := 1, frame := none, buf := [],
    result := .none, inbox := [], engine := [], engineCalls := 0, cfg := .standard }

/-! Updates. -/

def State.setM (s : State) (m : MachineState) : State := { s with m := m }
def State.setCpu (s : State) (c : List CpuEvent) : State := { s with m := { s.m with cpu := c } }
def State.setMem (s : State) (mem : Memory) : State := { s with m := { s.m with mem := mem } }
def State.setKb (s : State) (kb : Vector Byte 8) : State := { s with m := { s.m with kb := kb } }
def State.setBorder (s : State) (b : BitVec 3) : State := { s with m := { s.m with border := b } }
def State.setEar (s : State) (e : Bool) : State := { s with m := { s.m with ear := e } }
def State.setFrameCounter (s : State) (n : Nat) : State := { s with m := { s.m with frameCounter := n } }
def State.setDone (s : State) (d : Bool) : State := { s with m := { s.m with done := d } }
def State.setLive (s : State) (b : Bool) : State := { s with live := b }
def State.setFrame (s : State) (f : Option Frame) : State := { s with frame := f }
def State.setBuf (s : State) (b : List Byte) : State := { s with buf := b }
def State.setResult (s : State) (r : Result) : State := { s with result := r }
def State.setInbox (s : State) (c : List Call) : State := { s with inbox := c }
def State.setEngine (s : State) (e : List EngineCall) (n : Nat) : State :=
  { s with engine := e, engineCalls := n }

end Sys2Proof.Machine
end

