-- ==== Sys2Proof/Machine/Operands.lean ====
section
/-!
DEFINITION. The operand fields of every format (30_encoding.md R82 to R91): how an address, a port, a data byte, a key code,
an attribute byte and a snapshot's 16-bit field are taken apart.
-/

namespace Sys2Proof.Machine

/-- A memory address, reduced modulo 65536 (R56, R82). -/
def addrOf (a : Nat) : Nat := a % 65536

/-- A data value, reduced modulo 256 (R57). -/
def dataOf (v : Nat) : Byte := BitVec.ofNat 8 v

/-- A port address, reduced modulo 65536 (R57). -/
def portOf (p : Nat) : Word := BitVec.ofNat 16 p

/-- The half-row select of a port address, p[15:8]; active low (R83). -/
def portSel (p : Nat) : Byte := (portOf p).extractLsb' 8 8

/-- The ULA port is selected exactly when p[7:0] = 0xFE (R140). -/
def isUla (p : Nat) : Bool := (portOf p).extractLsb' 0 8 == 0xFE#8

/-- The border field of a ULA port write, v[2:0] (R84). -/
def ulaBorder (v : Nat) : BitVec 3 := (dataOf v).extractLsb' 0 3

/-- The ear field of a ULA port write, v[4] (R84). -/
def ulaEar (v : Nat) : Bool := (dataOf v).getLsbD 4

/-- The half-row number of a key code, k[15:8] (R86). -/
def keyRow (k : Word) : Nat := (k.extractLsb' 8 8).toNat

/-- The key mask of a key code, k[7:0] (R86). -/
def keyMask (k : Word) : Byte := k.extractLsb' 0 8

/-! An attribute byte (R87). -/

/-- Colour of set bitmap bits, a[2:0]. -/
def attrInk (a : Byte) : BitVec 3 := a.extractLsb' 0 3
/-- Colour of clear bitmap bits, a[5:3]. -/
def attrPaper (a : Byte) : BitVec 3 := a.extractLsb' 3 3
/-- a[6]. -/
def attrBright (a : Byte) : Bool := a.getLsbD 6
/-- a[7]. -/
def attrFlash (a : Byte) : Bool := a.getLsbD 7

/-- A 16-bit field of a snapshot image at offset o, in the layout's byte order (R54, R97). -/
def snapWord (l : SnapLayout) (s : List Byte) (o : Nat) : Word :=
  if l.lsbFirst then byteAt s (o + 1) ++ byteAt s o else byteAt s o ++ byteAt s (o + 1)

end Sys2Proof.Machine
end

