-- ==== Sys2Proof/Machine/Flags.lean ====
section
/-!
DEFINITION. The block's two flags, `done` and the flash phase (10_state.md R29), and the colour an attribute byte gives a bit
in a phase (43_renderer.md R187). The block keeps no condition codes.
-/

namespace Sys2Proof.Machine

/-- The flash phase is bit 4 of the frame counter, not a register of its own (R27). -/
def flashPhase (m : MachineState) : Bool := m.frameCounter.testBit 4

/-- Ink and paper change places while the cell flashes and the phase is on (R187). -/
def flashSwap (attr : Byte) (phase : Bool) : Bool := attrFlash attr && phase

/-- The 3-bit colour of a bitmap bit (R187). -/
def pixelColour (bit : Bool) (attr : Byte) (phase : Bool) : BitVec 3 :=
  if xor bit (flashSwap attr phase) then attrInk attr else attrPaper attr

/-- A pixel byte: bits 7-4 zero, bit 3 bright, bits 2-0 the colour (30_encoding.md R90). -/
def pixelByte (bright : Bool) (colour : BitVec 3) : Byte := 0#4 ++ (BitVec.ofBool bright ++ colour)

/-- The colour index of one bitmap pixel (R187). -/
def pixel (bit : Bool) (attr : Byte) (phase : Bool) : Byte :=
  pixelByte (attrBright attr) (pixelColour bit attr phase)

/-- A border pixel: the border colour, never bright (R183). -/
def borderPixel (m : MachineState) : Byte := pixelByte false m.border

end Sys2Proof.Machine
end

