-- ==== Sys2Proof/Machine/Ops.lean ====
section
/-!
DEFINITION. The named operations every meaning is written with: memory, the keyboard matrix, the pixel buffer, the bus
transactions, the engine calls (with the frame interrupt as ONE operation), re-initialisation and the contexts.
-/

namespace Sys2Proof.Machine

/-! ### Outcomes. -/

/-- Go on with the state an outcome gives; a refusal stays. -/
def andThen (o : Host.Outcome State Fault Refusal) (k : State → Host.Outcome State Fault Refusal) :
    Host.Outcome State Fault Refusal :=
  match o with
  | .next s => k s
  | .fault r => .fault r
  | .refused r => .refused r

/-! ### Memory (20_memory.md R56, R58; 00_scope.md R9). -/

/-- The byte at an address below 65536; 0x00 where no byte is listed. -/
def memGet : Memory → Nat → Byte
  | [], _ => 0#8
  | (k, v) :: m, a => if k = a then v else memGet m a

/-- List a byte at an address, or leave the address unlisted where the byte is 0x00. -/
def memPut : Memory → Nat → Byte → Memory
  | [], a, v => if v = 0#8 then [] else [(a, v)]
  | (k, w) :: m, a, v =>
    if k < a then (k, w) :: memPut m a v
    else if k = a then (if v = 0#8 then m else (a, v) :: m)
    else (if v = 0#8 then (k, w) :: m else (a, v) :: (k, w) :: m)

/-- `MemRead(addr, 1)` of R9. -/
def memRead (m : Memory) (a : Nat) : Byte := memGet m (addrOf a)

/-- `MemWrite(addr, 1, v)` of R9. -/
def memWrite (m : Memory) (a : Nat) (v : Byte) : Memory := memPut m (addrOf a) v

/-- Consecutive bytes from an address upward. No two bytes of a block of at most 65536 meet, so the order of the
writes does not matter; the last byte is put first, which keeps a long block cheap (notes/assumptions/13.md). -/
def memWriteBytes (m : Memory) : Nat → List Byte → Memory
  | _, [] => m
  | a, b :: bs => memWrite (memWriteBytes m (a + 1) bs) a b

/-! ### The keyboard matrix (10_state.md R25). -/

/-- kb[i]; there is no half-row 8 or above (R86), and an index out of range reads as no key held. -/
def kbGet (kb : Vector Byte 8) (i : Nat) : Byte := kb[i]?.getD 0xFF#8

/-- kb[i] <- v; nothing where i is 8 or above. -/
def kbSet (kb : Vector Byte 8) (i : Nat) (v : Byte) : Vector Byte 8 := kb.setIfInBounds i v

/-- The AND of the half-rows whose select bit is clear, 0xFF when there is none (41_io_port.md R141). -/
def kbSelect (kb : Vector Byte 8) (sel : Byte) : Byte :=
  (List.range 8).foldl (fun r i => if sel.getLsbD i then r else r &&& kbGet kb i) 0xFF#8

/-! ### The pixel buffer (10_state.md R33; 30_encoding.md R90). -/

/-- Row y of the buffer, `buf[352*y .. 352*y+351]`, replaced. -/
def writeRow (buf : List Byte) (y : Nat) (row : List Byte) : List Byte :=
  buf.take (frameW * y) ++ row ++ buf.drop (frameW * y + frameW)

/-! ### The bus transactions of the engine, as operations on the state. -/

/-- The byte at a, as the result (R120, R122). -/
def readByte (a : Nat) (s : State) : State := s.setResult (.byte (memRead s.m.mem a))

/-- The cell at a written (R121). -/
def writeByte (a v : Nat) (s : State) : State :=
  (s.setMem (memWrite s.m.mem a (dataOf v))).setResult .none

/-- The keyboard multiplexer's byte, as the result (R141). -/
def readUla (p : Nat) (s : State) : State := s.setResult (.byte (kbSelect s.m.kb (portSel p)))

/-- An unimplemented port's byte, as the result (R142). -/
def readNoPort (s : State) : State := s.setResult (.byte 0xFF#8)

/-- Border and ear latched, both on every such write (R143). -/
def writeUla (v : Nat) (s : State) : State :=
  ((s.setBorder (ulaBorder v)).setEar (ulaEar v)).setResult .none

/-- Nothing changes (R144, R162); the transaction has no result value. -/
def noEffect (s : State) : State := s.setResult .none

/-- The terminal flag set (R283). -/
def raiseDone (s : State) : State := (s.setDone true).setResult .none

/-- One transaction the engine issues during a call, by the rule of its row (R255). -/
def busOp (op : BusOp) (s : State) : State :=
  match op with
  | .mrd a => readByte a s
  | .mwr a v => writeByte a v s
  | .iord p => if isUla p then readUla p s else readNoPort s
  | .iowr p v => if isUla p then writeUla v s else noEffect s
  | .setdone => raiseDone s

/-- The byte a transaction answered with, if it has one. -/
def replyOf (r : Result) : List Byte :=
  match r with
  | .byte b => [b]
  | _ => []

/-- The transactions of one call in the order they are issued, each against the state the one before left, and the
bytes the engine was answered with (R255). -/
def runBus : List BusOp → State → State × List Byte
  | [], s => (s, [])
  | op :: ops, s =>
    let s1 := busOp op s
    let r := runBus ops s1
    (r.1, replyOf s1.result ++ r.2)

/-! ### Engine calls (45_frame.md). -/

/-- What the engine does in the next call: the head of the engine input; where nothing is listed, a call that
issues no transaction and returns a free number of cycles. The input is common to all contexts, so a FRAME on one takes
the entries that come next, whichever context called before (DESIGN CHOICE, notes/assumptions/4.md). -/
def nextCall (s : State) : EngineCall :=
  match s.engine with
  | [] => { ops := [], used := freeCycles s.engineCalls }
  | c :: _ => c

/-- The engine input after one more call has been taken from it. -/
def takeCall (s : State) : State := s.setEngine s.engine.tail (s.engineCalls + 1)

/-- The state after the transactions of the next call, and the engine's replies. -/
def callBus (s : State) : State × List Byte := runBus (nextCall s).ops (takeCall s)

/-- A step of the sequencer inside FRAME: the frame's new locals, and no result value of its own. -/
def setStep (s : State) (f : Frame) : State := (s.setFrame (some f)).setResult .none

/-- TAKING THE FRAME INTERRUPT, the block's whole part in interrupt entry (R253, 60_exceptions.md R309): one call
`Engine.Interrupt(IRQ_MODE_ARG)`. The block saves no state, selects no vector and keeps nothing pending (R305); what
the engine does with the interrupt reaches the block as bus transactions of the call. The cycles returned become the
carry when IRQ_CYCLES_CHARGED, else the carry is 0 (R254). There is no return from interrupt to model (R310). -/
def raiseFrameInterrupt (f : Frame) (s : State) : State :=
  let c := nextCall s
  let r := callBus s
  setStep (r.1.setCpu (.interrupt s.cfg.irqModeArg r.2 c.used :: r.1.m.cpu))
    { f with stage := .exec, carry := if s.cfg.irqCyclesCharged then (c.used : Int) else 0 }

/-- One call `Engine.Execute(n)`; the carry becomes the cycles used less the cycles asked for (R256). -/
def executeCycles (n : Int) (f : Frame) (s : State) : State :=
  let c := nextCall s
  let r := callBus s
  setStep (r.1.setCpu (.execute n r.2 c.used :: r.1.m.cpu))
    { f with stage := .line, carry := (c.used : Int) - n }

/-! ### Re-initialisation and contexts (46_lifecycle.md). -/

/-- Every field of the record at its reset value, `Engine.Reset` among them (10_state.md R37; 44_snapshot.md R211). -/
def reinit (s : State) : State := s.setM .reset

/-- A context set aside under its handle; the list stays in rising order of handles. -/
def park (h : Nat) (m : MachineState) : List (Nat × MachineState) → List (Nat × MachineState)
  | [] => [(h, m)]
  | (k, n) :: ps => if h < k then (h, m) :: (k, n) :: ps else (k, n) :: park h m ps

/-- The context parked under a handle. -/
def parkedAt (h : Nat) : List (Nat × MachineState) → Option MachineState
  | [] => none
  | (k, m) :: ps => if k = h then some m else parkedAt h ps

/-- The contexts parked under other handles. -/
def unpark (h : Nat) (ps : List (Nat × MachineState)) : List (Nat × MachineState) :=
  ps.filter fun p => p.1 != h

/-- Every context that exists but is not selected, once the selected one has been set aside too. -/
def parkAll (s : State) : List (Nat × MachineState) :=
  if s.live then park s.handle s.m s.parked else s.parked

/-- The context with handle h selected; where there is none, the transaction meets a freed handle (R281, R303). -/
def select (h : Nat) (s : State) : State :=
  if h = s.handle then s
  else
    match parkedAt h (parkAll s) with
    | some m => { s with m := m, live := true, handle := h, parked := unpark h (parkAll s) }
    | none => { s with m := .reset, live := false, handle := h, parked := parkAll s }

/-- The context a call is addressed to selected. -/
def address (to? : Option Nat) (s : State) : State :=
  match to? with
  | none => s
  | some h => select h s

/-- A fresh context allocated, selected and answered (R280). -/
def allocate (s : State) : State :=
  { s with parked := parkAll s, m := .reset, live := true, handle := s.nextHandle,
           nextHandle := s.nextHandle + 1, result := .handle s.nextHandle }

/-! ### Who may issue a transaction (60_exceptions.md R303, R312). -/

/-- An engine transaction: at any time on a context that exists. -/
def onEngine (s : State) (t : State) : Host.Outcome State Fault Refusal :=
  if s.live then .next t else .refused .freedHandle

/-- A host transaction: on a context that exists, and never while a FRAME is in progress (R67). -/
def onHost (s : State) (k : Host.Outcome State Fault Refusal) : Host.Outcome State Fault Refusal :=
  if s.live then
    match s.frame with
    | some _ => .refused .hostDuringFrame
    | none => k
  else .refused .freedHandle

/-- An internal step: only while a FRAME is in progress (30_encoding.md R80). -/
def inFrame (s : State) (k : Frame → Host.Outcome State Fault Refusal) : Host.Outcome State Fault Refusal :=
  if s.live then
    match s.frame with
    | some f => k f
    | none => .refused .outsideFrame
  else .refused .freedHandle

/-! ### The calls presented to the block. -/

/-- The next call presented to the block, taken from the inbox and decoded; `run` gives the instruction its meaning
on the context the call is addressed to. With no call presented nothing happens (notes/assumptions/3.md). -/
def takeNext (run : Instr → State → Host.Outcome State Fault Refusal) (s : State) :
    Host.Outcome State Fault Refusal :=
  match s.inbox with
  | [] => .next s
  | c :: rest =>
    match decode c.bytes with
    | .error e => .refused (.undecodable e)
    | .ok i => run i (address c.to? (s.setInbox rest))

/-- A call with a table word put at the head of the inbox, addressed to the selected context. The inbox is read only
while no FRAME is in progress, so none is. -/
def presentWord (s : State) (nbits w : Nat) : State :=
  (s.setInbox ({ to? := none, bytes := tablePacket nbits w } :: s.inbox)).setFrame none

end Sys2Proof.Machine
end

