-- ==== Sys2Proof/Machine/Renderer.lean ====
section
/-! DEFINITION. The scanline renderer: LINE y and the row of 352 pixels it writes (43_renderer.md). -/

namespace Sys2Proof.Machine

/-- The address of the bitmap byte of in-screen row y0 and cell c (R185). -/
def bmpAddr (y0 c : Nat) : Word :=
  let y := BitVec.ofNat 8 y0
  0x4000#16 ||| (((y.extractLsb' 6 2).setWidth 16) <<< 11) ||| (((y.extractLsb' 0 3).setWidth 16) <<< 8)
    ||| (((y.extractLsb' 3 3).setWidth 16) <<< 5) ||| BitVec.ofNat 16 c

/-- The address of the attribute byte of in-screen row y0 and cell c (R186). -/
def attrAddr (y0 c : Nat) : Word := BitVec.ofNat 16 (attrBase + y0 / 8 * 32 + c)

/-- Scanline y is in the top or the bottom border band (R181). -/
def inBorderBand (y : Nat) : Bool := decide (y < bitmapTop) || decide (bottomBorderTop ≤ y)

/-- The eight pixels of character cell c of in-screen row y0, bitmap bit 7 leftmost (R180, R184, R187; R53). -/
def cellPixels (m : MachineState) (y0 c : Nat) : List Byte :=
  let bm := memRead m.mem (bmpAddr y0 c).toNat
  let attr := memRead m.mem (attrAddr y0 c).toNat
  (List.range 8).map fun k => pixel (bm.getLsbD (7 - k)) attr (flashPhase m)

/-- The 256 bitmap pixels of in-screen row y0. -/
def bitmapPixels (m : MachineState) (y0 : Nat) : List Byte :=
  (List.range cellsPerRow).flatMap (cellPixels m y0)

/-- The 352 pixels of scanline y, read from the state at the moment the line is rendered (R180, R182). -/
def lineRow (m : MachineState) (y : Nat) : List Byte :=
  if inBorderBand y then List.replicate frameW (borderPixel m)
  else
    List.replicate borderLR (borderPixel m) ++ bitmapPixels m (y - bitmapTop)
      ++ List.replicate borderLR (borderPixel m)

/-- Row y of the buffer written, and the sequencer moved on to the next scanline's Execute call (R180, R257, R30). -/
def renderLine (y : Nat) (f : Frame) (s : State) : State :=
  setStep (s.setBuf (writeRow s.buf y (lineRow s.m y))) { f with stage := .exec, y := y + 1 }

/-- R180. -/
def execLine (y : Nat) (s : State) : Host.Outcome State Fault Refusal :=
  inFrame s fun f => if y ≤ 311 then .next (renderLine y f s) else .refused .scanlineRange

end Sys2Proof.Machine
end

