-- ==== Sys2Proof/Machine/FrameSequencer.lean ====
section
/-! DEFINITION. FRAME and its internal steps VSYNC and EXEC (45_frame.md); LINE is in Renderer.lean. -/

namespace Sys2Proof.Machine

/-- R253, R254. -/
def execVsync (s : State) : Host.Outcome State Fault Refusal :=
  inFrame s fun f => .next (raiseFrameInterrupt f s)

/-- R256. -/
def execExec (n : Int) (s : State) : Host.Outcome State Fault Refusal :=
  inFrame s fun f => .next (executeCycles n f s)

/-- The frame's locals when a FRAME starts: the interrupt comes first, then scanline 0 (R250). -/
def firstFrame : Frame := { stage := .vsync, y := 0, carry := 0 }

/-- A FRAME under way in the buffer b. -/
def openFrame (b : List Byte) (s : State) : State := (s.setBuf b).setFrame (some firstFrame)

/-- y and carry of the FRAME in progress. -/
def locals (s : State) : Frame := s.frame.getD firstFrame

/-- The cycles the sequencer asks for: `224 - carry`, passed on even when zero or negative (R256). -/
def request (f : Frame) : Int := cyclesPerLine - f.carry

/-- k scanlines: EXEC, the carry update, LINE, strictly in this order (R257). -/
def scanlines : Nat → State → Host.Outcome State Fault Refusal
  | 0, s => .next s
  | k + 1, s =>
    andThen (execExec (request (locals s)) s) fun s1 =>
      andThen (execLine (locals s1).y s1) fun s2 => scanlines k s2

/-- The end of a frame: the counter goes up by one without wrap, y and carry cease to exist, and FRAME's result is 0
(R258, R259). -/
def closeFrame (s : State) : State :=
  ((s.setFrameCounter (s.m.frameCounter + 1)).setFrame none).setResult (.count 0)

/-- A frame from its interrupt to its end. -/
def runFrame (s : State) : Host.Outcome State Fault Refusal :=
  andThen (execVsync s) fun s1 => andThen (scanlines frameH s1) fun s2 => .next (closeFrame s2)

/-- R250: one blocking transaction that runs to completion (20_memory.md R68). The buffer's length is checked first
(R251), then `done` (R252); in both cases nothing else happens and the host keeps its buffer. -/
def execFrame (b : List Byte) (s : State) : Host.Outcome State Fault Refusal :=
  onHost s <|
    if b.length < frameBytes then .next ((s.setBuf b).setResult (.count (frameBytes - b.length)))
    else if s.m.done then .next ((s.setBuf b).setResult (.count 0))
    else runFrame (openFrame b s)

/-- The internal step that comes next in a state with a FRAME in progress (60_exceptions.md R306). -/
def sequencerStep (f : Frame) (s : State) : Host.Outcome State Fault Refusal :=
  match f.stage with
  | .vsync => execVsync s
  | .exec => if f.y < frameH then execExec (request f) s else .next (closeFrame s)
  | .line => execLine f.y s

end Sys2Proof.Machine
end

