-- ==== Sys2Proof/Machine/IoPort.lean ====
section
/-! DEFINITION. IORD and IOWR, on the ULA port and on every other (41_io_port.md). -/

namespace Sys2Proof.Machine

/-- R141. -/
def execIordUla (p : Nat) (s : State) : Host.Outcome State Fault Refusal := onEngine s (readUla p s)

/-- R142. -/
def execIordNone (_p : Nat) (s : State) : Host.Outcome State Fault Refusal := onEngine s (readNoPort s)

/-- R143; the high byte of the port address is ignored. -/
def execIowrUla (_p v : Nat) (s : State) : Host.Outcome State Fault Refusal := onEngine s (writeUla v s)

/-- R144. -/
def execIowrNone (_p _v : Nat) (s : State) : Host.Outcome State Fault Refusal := onEngine s (noEffect s)

end Sys2Proof.Machine
end

