-- ==== Sys2Proof/Machine/Keyboard.lean ====
section
/-! DEFINITION. KEYDN and KEYUP (42_keyboard.md). A 0 bit means held. -/

namespace Sys2Proof.Machine

/-- One half-row replaced; a key transaction has no result value. -/
def setHalfRow (s : State) (row : Nat) (v : Byte) : State := (s.setKb (kbSet s.m.kb row v)).setResult .none

/-- R160: `kb[row] <- kb[row] & ~m`. -/
def execKeydnRow (k : Word) (s : State) : Host.Outcome State Fault Refusal :=
  onHost s (.next (setHalfRow s (keyRow k) (kbGet s.m.kb (keyRow k) &&& ~~~(keyMask k))))

/-- R162: a half-row of 8 or above is ignored. -/
def execKeydnIgn (_k : Word) (s : State) : Host.Outcome State Fault Refusal := onHost s (.next (noEffect s))

/-- R161: `kb[row] <- kb[row] | m`. -/
def execKeyupRow (k : Word) (s : State) : Host.Outcome State Fault Refusal :=
  onHost s (.next (setHalfRow s (keyRow k) (kbGet s.m.kb (keyRow k) ||| keyMask k)))

/-- R162. -/
def execKeyupIgn (_k : Word) (s : State) : Host.Outcome State Fault Refusal := onHost s (.next (noEffect s))

end Sys2Proof.Machine
end

