-- ==== Sys2Proof/Machine/Lifecycle.lean ====
section
/-! DEFINITION. INIT, FREE and SETDONE (46_lifecycle.md). -/

namespace Sys2Proof.Machine

/-- R280. INIT needs no context, so it is the one transaction a freed handle does not stop; like every host
transaction it has no step while a FRAME is in progress (R262). -/
def execInit (s : State) : Host.Outcome State Fault Refusal :=
  match s.frame with
  | some _ => .refused .hostDuringFrame
  | none => .next (allocate s)

/-- R281: the selected context ceases to exist; nothing can read what its record held. -/
def execFree (s : State) : Host.Outcome State Fault Refusal :=
  onHost s (.next ((s.setLive false).setResult .none))

/-- R283. -/
def execSetdone (s : State) : Host.Outcome State Fault Refusal := onEngine s (raiseDone s)

end Sys2Proof.Machine
end

