-- ==== Sys2Proof/Machine/MemoryBus.lean ====
section
/-! DEFINITION. MRD, MWR, PEEK and POKE (40_memory_ops.md). -/

namespace Sys2Proof.Machine

/-- R120. -/
def execMrd (a : Nat) (s : State) : Host.Outcome State Fault Refusal := onEngine s (readByte a s)

/-- R121. -/
def execMwr (a v : Nat) (s : State) : Host.Outcome State Fault Refusal := onEngine s (writeByte a v s)

/-- R122. -/
def execPeek (a : Nat) (s : State) : Host.Outcome State Fault Refusal := onHost s (.next (readByte a s))

/-- R123: the read and the write are one transaction. -/
def execPoke (a v : Nat) (s : State) : Host.Outcome State Fault Refusal :=
  onHost s (.next ((writeByte a v s).setResult (.byte (memRead s.m.mem a))))

end Sys2Proof.Machine
end

