-- ==== Sys2Proof/Machine/Snapshot.lean ====
section
/-! DEFINITION. LOAD: the snapshot image's two sub-formats, its RLE stream, and the load (44_snapshot.md). -/

namespace Sys2Proof.Machine

/-- The RLE decoder (R219); TERM ends a classic stream, RUN expands, LIT passes through. None for a RUN cut off by the end
of the stream, which makes the image malformed (R212). -/
def rle (classic : Bool) : List Byte → Option (List Byte)
  | [] => some []
  | b :: rest =>
    if classic && b == 0x00#8 && rest.take 3 == [0xED#8, 0xED#8, 0x00#8] then some []
    else if b == 0xED#8 && rest.take 1 == [0xED#8] then
      match rest with
      | _ :: n :: v :: rest' => (rle classic rest').map (List.replicate n.toNat v ++ ·)
      | _ => none
    else (rle classic rest).map (b :: ·)

/-- An RLE stream whose output is at most `cap` bytes long (R212 (c), (d)). -/
def rleUpTo (classic : Bool) (cap : Nat) (src : List Byte) : Option (List Byte) :=
  (rle classic src).filter fun out => out.length ≤ cap

/-- One page block's page id and data, decompressed. -/
structure PageBlock where
  page : Byte
  data : List Byte
  deriving DecidableEq, Repr

/-- The data of a block whose length field is len, and what follows it (30_encoding.md R95; R212(d)). -/
def blockData (len : Word) (rest : List Byte) : Option (List Byte × List Byte) :=
  if len = 0xFFFF#16 then
    if snapPageBytes ≤ rest.length then some (rest.take snapPageBytes, rest.drop snapPageBytes) else none
  else if len.toNat ≤ rest.length then
    (rleUpTo false snapPageBytes (rest.take len.toNat)).map fun out => (out, rest.drop len.toNat)
  else none

/-- The block walk (R221), which must end exactly at the end of the image (R212(d)); every block takes at least three
bytes, so the image's length is fuel enough. -/
def pageBlocks (l : SnapLayout) : Nat → List Byte → Option (List PageBlock)
  | _, [] => some []
  | fuel + 1, l0 :: l1 :: page :: rest =>
    (blockData (snapWord l [l0, l1] 0) rest).bind fun d =>
      (pageBlocks l fuel d.2).map ({ page := page, data := d.1 } :: ·)
  | _, _ => none

/-- Where a page is loaded, none for a page that is ignored (R224, R225, R226). -/
def pageAddr (policy : PagePolicy) (page : Byte) : Option Nat :=
  match page.toNat with
  | 0 => none
  | 4 => some 0x8000
  | 5 => some 0xC000
  | 8 => some 0x4000
  | _ =>
    match policy with
    | .loadAt0 => some 0x0000
    | .skip => none

/-- What a well-formed image gives the block: the runs of bytes to write, in file order, the border colour, and what is
handed to the engine. -/
structure Image where
  pieces : List (Nat × List Byte)
  border : BitVec 3
  header : List Byte
  pc : Word
  rBit7 : Bool
  ext : List Byte
  deriving DecidableEq, Repr

/-- Header byte 12, normalised: 0xFF is read as 0x01 (R215). -/
def flagByte (s : List Byte) : Byte := if byteAt s 12 = 0xFF#8 then 0x01#8 else byteAt s 12

/-- The image's parts common to both sub-formats (R222, R223). -/
def imageOf (l : SnapLayout) (s : List Byte) (pc : Word) (ext : List Byte) (pieces : List (Nat × List Byte)) : Image :=
  { pieces := pieces, border := (flagByte s).extractLsb' l.borderLow 3, header := s.take snapHeaderBytes,
    pc := pc, rBit7 := (flagByte s).getLsbD l.rBit7At, ext := ext }

/-- A classic payload's bytes for 0x4000 upward (R212 (b), (c); R216 to R218). -/
def classicData (compressed : Bool) (payload : List Byte) : Option (List Byte) :=
  if compressed then rleUpTo true snapClassicBytes payload
  else if payload.length = snapClassicBytes then some payload
  else none

/-- A classic image (PC not zero). -/
def parseClassic (l : SnapLayout) (s : List Byte) (pc : Word) : Option Image :=
  (classicData ((flagByte s).getLsbD 5) (s.drop snapHeaderBytes)).map fun d =>
    imageOf l s pc [] [(bitmapBase, d)]

/-- The extension-header length E (R221). -/
def extLen (l : SnapLayout) (s : List Byte) : Nat := (snapWord l s l.extLenAt).toNat

/-- Where the page blocks start: right after the extension header (30_encoding.md R94). -/
def blocksAt (l : SnapLayout) (s : List Byte) : Nat := l.extLenAt + 2 + extLen l s

/-- The runs of bytes the page blocks write, in file order; an ignored page writes none. -/
def piecesOf (policy : PagePolicy) (bs : List PageBlock) : List (Nat × List Byte) :=
  bs.filterMap fun b => (pageAddr policy b.page).map fun a => (a, b.data)

/-- An extended image (PC zero). The length field and the true PC must lie in the image and the extension header
(R212(d): with the standard layout, n >= 32, 2 <= E and 32 + E <= n). -/
def parseExtended (policy : PagePolicy) (l : SnapLayout) (s : List Byte) : Option Image :=
  if l.extLenAt + 2 ≤ s.length ∧ l.extPcAt + 2 ≤ blocksAt l s ∧ blocksAt l s ≤ s.length then
    (pageBlocks l s.length (s.drop (blocksAt l s))).map fun bs =>
      imageOf l s (snapWord l s l.extPcAt) ((s.drop (l.extLenAt + 2)).take (extLen l s)) (piecesOf policy bs)
  else none

/-- A snapshot image, none when it is not well formed (R212, R213, R214). -/
def parseImage (cfg : Config) (s : List Byte) : Option Image :=
  if s.length < snapHeaderBytes then none
  else
    let pc := snapWord cfg.layout s cfg.layout.pcAt
    if pc ≠ 0 then parseClassic cfg.layout s pc else parseExtended cfg.unknownPage cfg.layout s

/-- The writes of an image, a later run over an earlier one (R221). -/
def writePieces (mem : Memory) (ps : List (Nat × List Byte)) : Memory :=
  ps.foldl (fun m p => memWriteBytes m p.1 p.2) mem

/-- An image applied to a re-initialised block: memory, then the border, then the CPU registers handed over
(R210, R222, R223). -/
def applyImage (img : Image) (s : State) : State :=
  let t := (s.setMem (writePieces s.m.mem img.pieces)).setBorder img.border
  (t.setCpu (.setRegisters img.header img.pc img.rBit7 img.ext :: t.m.cpu)).setResult .none

/-- R210: a malformed image is refused, never loaded partly. -/
def execLoad (s : List Byte) (st : State) : Host.Outcome State Fault Refusal :=
  onHost st <|
    match parseImage st.cfg s with
    | none => .refused .malformedSnapshot
    | some img => .next (applyImage img (reinit st))

end Sys2Proof.Machine
end

