-- ==== Sys2Proof/Machine/Dispatch.lean ====
section
/-! DEFINITION. One arm per row of spec/opcode_table.json. -/

namespace Sys2Proof.Machine

def exec (i : Instr) (s : State) : Host.Outcome State Fault Refusal :=
  match i with
  | .mrd a => Sys2Proof.Machine.execMrd a s
  | .mwr a v => Sys2Proof.Machine.execMwr a v s
  | .iordUla p => Sys2Proof.Machine.execIordUla p s
  | .iordNone p => Sys2Proof.Machine.execIordNone p s
  | .iowrUla p v => Sys2Proof.Machine.execIowrUla p v s
  | .iowrNone p v => Sys2Proof.Machine.execIowrNone p v s
  | .setdone => Sys2Proof.Machine.execSetdone s
  | .peek a => Sys2Proof.Machine.execPeek a s
  | .poke a v => Sys2Proof.Machine.execPoke a v s
  | .keydnRow k => Sys2Proof.Machine.execKeydnRow k s
  | .keydnIgn k => Sys2Proof.Machine.execKeydnIgn k s
  | .keyupRow k => Sys2Proof.Machine.execKeyupRow k s
  | .keyupIgn k => Sys2Proof.Machine.execKeyupIgn k s
  | .load b => Sys2Proof.Machine.execLoad b s
  | .frame b => Sys2Proof.Machine.execFrame b s
  | .init => Sys2Proof.Machine.execInit s
  | .free => Sys2Proof.Machine.execFree s
  | .vsync => Sys2Proof.Machine.execVsync s
  | .exec n => Sys2Proof.Machine.execExec n s
  | .line y => Sys2Proof.Machine.execLine y s

end Sys2Proof.Machine
end

