-- ==== Sys2Proof/Machine/Step.lean ====
section
/-!
DEFINITION. One step of the machine: the internal step of a FRAME in progress, else the next call presented to the block.
FRAME itself runs to completion in one step (45_frame.md R262, 20_memory.md R68).
-/

namespace Sys2Proof.Machine

/-- One step. -/
def step (s : State) : Host.Outcome State Fault Refusal :=
  match s.frame with
  | some f => sequencerStep f s
  | none => takeNext exec s

/-- s with the table word w presented as the very next call. -/
def State.withFetchWord (s : State) (nbits w : Nat) : State := presentWord s nbits w

end Sys2Proof.Machine
end

