-- ==== Sys2Proof/Safety.lean ====
section
/-!
DEFINITION. The terms statements about the machine are made in: who issues an instruction, when a transaction may come, the
effect of an engine transaction on the record, what a FRAME's engine calls will be, and the invariant.
-/

namespace Sys2Proof.Machine

/-- The transactions the host issues (60_exceptions.md R312). -/
def isHostInstr : Instr → Bool
  | .peek _ => true
  | .poke _ _ => true
  | .keydnRow _ => true
  | .keydnIgn _ => true
  | .keyupRow _ => true
  | .keyupIgn _ => true
  | .load _ => true
  | .frame _ => true
  | .init => true
  | .free => true
  | .mrd _ | .mwr _ _ | .iordUla _ | .iordNone _ | .iowrUla _ _ | .iowrNone _ _ | .setdone => false
  | .vsync | .exec _ | .line _ => false

/-- The steps only the block issues, inside FRAME (R312; 30_encoding.md R80). -/
def isInternalInstr : Instr → Bool
  | .vsync => true
  | .exec _ => true
  | .line _ => true
  | .mrd _ | .mwr _ _ | .iordUla _ | .iordNone _ | .iowrUla _ _ | .iowrNone _ _ | .setdone => false
  | .peek _ | .poke _ _ | .keydnRow _ | .keydnIgn _ | .keyupRow _ | .keyupIgn _ => false
  | .load _ | .frame _ | .init | .free => false

/-- Between FRAME calls, on a context that exists: when the host may issue a transaction (20_memory.md R67). -/
def State.Ready (s : State) : Prop := s.live = true ∧ s.frame = none

/-- The row of the table an engine transaction belongs to (30_encoding.md R92). -/
def BusOp.toInstr : BusOp → Instr
  | .mrd a => .mrd a
  | .mwr a v => .mwr a v
  | .iord p => portRead p
  | .iowr p v => portWrite p v
  | .setdone => .setdone

/-- What an engine transaction does to the record (R120, R121, R141 to R144, R283): reads change nothing. -/
def busEffect (m : MachineState) : BusOp → MachineState
  | .mrd _ => m
  | .mwr a v => { m with mem := memWrite m.mem a (BitVec.ofNat 8 v) }
  | .iord _ => m
  | .iowr p v => if p % 256 = 0xFE then { m with border := BitVec.ofNat 3 v, ear := v.testBit 4 } else m
  | .setdone => { m with done := true }

/-- The engine call number k from state s on, counted from 0: the listed one, or the silent one with free cycles. -/
def upcoming (s : State) (k : Nat) : EngineCall :=
  s.engine[k]?.getD { ops := [], used := freeCycles (s.engineCalls + k) }

/-- The record after the bus transactions of the first n engine calls from s on. -/
def machineAfterCalls (s : State) : Nat → MachineState
  | 0 => s.m
  | n + 1 => (upcoming s n).ops.foldl busEffect (machineAfterCalls s n)

/-- The carry before scanline y of a FRAME started in s, whose VSYNC is engine call 0 and whose scanline y is engine
call y + 1 (45_frame.md R254, R256). -/
def carryBefore (s : State) : Nat → Int
  | 0 => if s.cfg.irqCyclesCharged then ((upcoming s 0).used : Int) else 0
  | y + 1 => ((upcoming s (y + 1)).used : Int) - (224 - carryBefore s y)

/-- The cycles of an Execute call, 0 for any other engine operation. -/
def executeUsed : CpuEvent → Int
  | .execute _ _ used => used
  | .reset | .setRegisters _ _ _ _ | .interrupt _ _ _ => 0

/-- The event is an Execute call. -/
def isExecute : CpuEvent → Bool
  | .execute _ _ _ => true
  | .reset | .setRegisters _ _ _ _ | .interrupt _ _ _ => false

/-- The record a LOAD leaves: the engine reset and handed the header, the PC, bit 7 of R and the extension header; border
from the header; memory as given; every other field at its reset value (44_snapshot.md R211, R222, R223; the standard
layout's bit places). -/
def recordAfterLoad (header : List Byte) (pc : Word) (ext : List Byte) (mem : Memory) : MachineState :=
  { cpu := [.setRegisters header pc ((flagByte header).getLsbD 0) ext, .reset], mem := mem,
    kb := Vector.replicate 8 0xFF, border := (flagByte header).extractLsb' 1 3, ear := false, frameCounter := 0,
    done := false }

/-- A page block writes the byte at address a. -/
def PageBlock.covers (policy : PagePolicy) (a : Nat) (b : PageBlock) : Prop :=
  ∃ d, pageAddr policy b.page = some d ∧ d ≤ a ∧ a < d + b.data.length

/-- The event is an Interrupt call. -/
def isInterrupt : CpuEvent → Bool
  | .interrupt _ _ _ => true
  | .reset | .setRegisters _ _ _ _ | .execute _ _ _ => false

/-- A record is in order: memory in canonical form, and a CPU state that began with `Engine.Reset`. -/
def MachineState.Ok (m : MachineState) : Prop := m.mem.wf = true ∧ m.cpu.getLast? = some .reset

/-- The invariant: every record in order; the contexts' handles distinct, rising in the parked list and already given
out; and a FRAME in progress only on a context that exists, with y at most 312 and a buffer of a whole frame. -/
structure State.Inv (s : State) : Prop where
  selected : s.m.Ok
  parked : ∀ p ∈ s.parked, p.2.Ok ∧ p.1 < s.nextHandle
  rising : s.parked.Pairwise fun p q => p.1 < q.1
  issued : s.live = true → s.handle < s.nextHandle
  handle : ∀ p ∈ s.parked, p.1 ≠ s.handle
  frame : ∀ f, s.frame = some f → s.live = true ∧ f.y ≤ 312 ∧ frameBytes ≤ s.buf.length

end Sys2Proof.Machine
end

