-- ==== Sys2Proof/Certificates/Slice0/Obligations.lean ====
section
/-!
DEFINITION. The statements about the machine, each from the spec's rules or from its sections. A statement whose rule the spec
marks as its own decision or derivation says so in its docstring, with the spec's entry (D<n>) or the log entry.
-/

open Sys2Proof Sys2Proof.Machine

/-! ### Encoding and decoding. -/

/-- Decode and encode agree on every well-formed instruction, with every operand at every value. The wire form is the
model's own (notes/assumptions/1.md); the row a call's operand selects is the spec's (30_encoding.md R92, its own D1). -/
def Obligations.DecodeOfEncode : Prop :=
  ∀ i : Instr, i.wellFormed = true → decode (encode i) = .ok i

/-- Whatever packet is decoded, the instruction belongs to its row of the opcode table: no operand of one row is taken
for another's (30_encoding.md section 4, the spec's own D1; wire form: notes/assumptions/1.md). -/
def Obligations.DecodedInstructionIsWellFormed : Prop :=
  ∀ (bs : Packet) (i : Instr), decode bs = .ok i → i.wellFormed = true

/-- R140: the ULA port is selected exactly when the low byte is 0xFE; the high byte takes no part. -/
def Obligations.PortDecodeByLowByte : Prop :=
  ∀ p v : Nat,
    (p % 256 = 0xFE → portRead p = .iordUla p ∧ portWrite p v = .iowrUla p v) ∧
    (p % 256 ≠ 0xFE → portRead p = .iordNone p ∧ portWrite p v = .iowrNone p v)

/-- A key code's row is valid exactly when its high byte is below 8 (30_encoding.md section 2, format KEY, which the spec
marks as derived). -/
def Obligations.KeyCodeSelectsRow : Prop :=
  ∀ k : Word,
    (k.toNat / 256 < 8 → keyDown k = .keydnRow k ∧ keyUp k = .keyupRow k) ∧
    (8 ≤ k.toNat / 256 → keyDown k = .keydnIgn k ∧ keyUp k = .keyupIgn k)

/-- Packets written out byte by byte decode to the transactions they stand for (operand fields: 30_encoding.md section 2;
channel byte and layout: notes/assumptions/1.md). -/
def Obligations.WordsDecodeToTheirRows : Prop :=
  decode [0x34, 0x12, 1] = .ok (.mrd 0x1234) ∧
  decode [0x00, 0x58, 2, 0x00, 0x47] = .ok (.mwr 0x5800 0x47) ∧
  decode [0xFE, 0xF7, 3] = .ok (.iordUla 0xF7FE) ∧
  decode [0xFF, 0x00, 3] = .ok (.iordNone 0x00FF) ∧
  decode [0xFE, 0x12, 4, 0x00, 0x1D] = .ok (.iowrUla 0x12FE 0x1D) ∧
  decode [0x45, 0x23, 7, 0x01, 0x99, 0x01] = .ok (.poke 0x12345 0x99) ∧
  decode [0x05, 0x02, 8] = .ok (.keydnRow 0x0205) ∧
  decode [0x01, 0x08, 8] = .ok (.keydnIgn 0x0801) ∧
  decode [0x01, 0x02, 9] = .ok (.keyupRow 0x0201) ∧
  decode [0x00, 0x00, 15, 0xBA, 0x03] = .ok (.exec 221) ∧
  decode [0x30, 0x00, 16] = .ok (.line 48)

/-! ### The step. -/

/-- Between FRAMEs a step takes the next call presented: when its packet decodes, the step is exec of the instruction, on
the context the call is addressed to; a packet that is no call is refused by name; with no call presented nothing
happens. The model's choices: that calls wait in an inbox (notes/assumptions/3.md), that a packet may be no call and is then
refused (its wire form, notes/assumptions/1.md; the spec itself knows no illegal call), and that a call names its context
(notes/assumptions/8.md). -/
def Obligations.StepTakesTheNextCall : Prop :=
  ∀ s : State, s.frame = none →
    (∀ c rest i, s.inbox = c :: rest → decode c.bytes = .ok i →
      step s = exec i (address c.to? { s with inbox := rest })) ∧
    (∀ c rest e, s.inbox = c :: rest → decode c.bytes = .error e → step s = .refused (.undecodable e)) ∧
    (s.inbox = [] → step s = .next s)

/-- In a state with a FRAME in progress a step is the internal step that comes next: VSYNC, then for each scanline EXEC of
224 - carry cycles and LINE, and after scanline 311 the end of the frame (60_exceptions.md section 3, the order of events,
the spec's own D11 and D15; that a step continues such a state is notes/assumptions/6.md). -/
def Obligations.StepContinuesFrame : Prop :=
  ∀ (s : State) (f : Frame), s.frame = some f →
    (f.stage = .vsync → step s = exec .vsync s) ∧
    (f.stage = .exec → f.y < 312 → step s = exec (.exec (224 - f.carry)) s) ∧
    (f.stage = .line → step s = exec (.line f.y) s) ∧
    (f.stage = .exec → 312 ≤ f.y →
      step s = .next { s with m := { s.m with frameCounter := s.m.frameCounter + 1 },
                              frame := none, result := .count 0 })

/-! ### Memory. -/

/-- R120: MRD answers `mem[a mod 65536]` and writes no state. -/
def Obligations.MrdAnswersStoredByte : Prop :=
  ∀ (s : State) (a : Nat), s.live = true →
    exec (.mrd a) s = .next { s with result := .byte (memRead s.m.mem (a % 65536)) }

/-- MWR writes the cell `a mod 65536` with `v mod 256`, every other cell and all other state kept, whatever the region
(40_memory_ops.md, MWR; that no region is protected is the spec's own D28). -/
def Obligations.MwrStoresLowByte : Prop :=
  ∀ (s : State) (a v : Nat), s.live = true → s.m.mem.wf = true →
    ∃ t, exec (.mwr a v) s = .next t ∧
      t = { s with m := { s.m with mem := t.m.mem }, result := .none } ∧
      ∀ x, memRead t.m.mem x = if x % 65536 = a % 65536 then BitVec.ofNat 8 v else memRead s.m.mem x

/-- R122: PEEK answers `mem[a mod 65536]` for an address of any width, between FRAME calls and whatever `done` is, and
writes no state. -/
def Obligations.PeekAnswersStoredByte : Prop :=
  ∀ (s : State) (a : Nat), s.Ready →
    exec (.peek a) s = .next { s with result := .byte (memRead s.m.mem (a % 65536)) }

/-- R123: POKE answers the previous byte of the cell, writes `v mod 256` there, and keeps everything else. -/
def Obligations.PokeAnswersPreviousByte : Prop :=
  ∀ (s : State) (a v : Nat), s.Ready → s.m.mem.wf = true →
    ∃ t, exec (.poke a v) s = .next t ∧
      t = { s with m := { s.m with mem := t.m.mem },
                   result := .byte (memRead s.m.mem (a % 65536)) } ∧
      ∀ x, memRead t.m.mem x = if x % 65536 = a % 65536 then BitVec.ofNat 8 v else memRead s.m.mem x

/-- R58: memory reads (MRD, PEEK and the renderer's, in LINE) have no side effect on the record; memory writes (MWR, POKE)
change exactly one cell; no address has a side effect. -/
def Obligations.MemoryWritesChangeExactlyOneCell : Prop :=
  ∀ (s t : State), s.m.mem.wf = true →
    (∀ a, exec (.mrd a) s = .next t ∨ exec (.peek a) s = .next t → t.m = s.m) ∧
    (∀ y, exec (.line y) s = .next t → t.m = s.m) ∧
    (∀ a v, exec (.mwr a v) s = .next t ∨ exec (.poke a v) s = .next t →
      t.m = { s.m with mem := t.m.mem } ∧ memRead t.m.mem a = BitVec.ofNat 8 v ∧
        ∀ x, x % 65536 ≠ a % 65536 → memRead t.m.mem x = memRead s.m.mem x)

/-- The write-then-read law (40_memory_ops.md, derived there; the source's §8): after a write of v at a or at a + 65536 by
either agent, a read of a by either agent answers v. -/
def Obligations.WriteThenReadReturnsValue : Prop :=
  ∀ (s : State) (a v : Nat), s.Ready → s.m.mem.wf = true →
    ∀ w ∈ [Instr.mwr a v, .poke a v, .mwr (a + 65536) v, .poke (a + 65536) v],
      ∀ r ∈ [Instr.mrd a, .peek a],
        ∃ t u, exec w s = .next t ∧ exec r t = .next u ∧ u.result = .byte (BitVec.ofNat 8 v)

/-- Writes to different cells commute, and of two writes to one cell the second stays, by MWR or by POKE
(40_memory_ops.md, derived there). Two MWRs agree in every field; where a POKE is among them all fields agree but the
result, which is a POKE's own answer. -/
def Obligations.MemoryWritesCommute : Prop :=
  ∀ (s : State) (a b v w : Nat), s.m.mem.wf = true →
    (a % 65536 ≠ b % 65536 →
      andThen (exec (.mwr a v) s) (exec (.mwr b w)) = andThen (exec (.mwr b w) s) (exec (.mwr a v))) ∧
    (a % 65536 = b % 65536 →
      andThen (exec (.mwr a v) s) (exec (.mwr b w)) = exec (.mwr b w) s) ∧
    (s.Ready → ∀ f ∈ [Instr.mwr a v, .poke a v], ∀ g ∈ [Instr.mwr b w, .poke b w],
      ∃ t, andThen (exec f s) (exec g) = .next t ∧
        (a % 65536 ≠ b % 65536 →
          ∃ u, andThen (exec g s) (exec f) = .next u ∧ t = { u with result := t.result }) ∧
        (a % 65536 = b % 65536 → ∃ u, exec g s = .next u ∧ t = { u with result := t.result }))

/-! ### Ports. -/

/-- IORD on the ULA port answers the AND of the half-rows whose select bit is clear, all ones where there is none, and
changes no state (41_io_port.md, IORD_ULA; that no bit of the answer carries anything else is the spec's own D14). -/
def Obligations.IordUlaAndsSelectedRows : Prop :=
  ∀ (s : State) (p : Nat), s.live = true →
    ∃ r : Byte, exec (.iordUla p) s = .next { s with result := .byte r } ∧
      ∀ j < 8, (r.getLsbD j = true ↔
        ∀ i : Fin 8, (p / 256).testBit i = false → (s.m.kb[i]).getLsbD j = true)

/-- R142: IORD on any other port answers 0xFF and changes no state. -/
def Obligations.IordOtherPortsReadFF : Prop :=
  ∀ (s : State) (p : Nat), s.live = true →
    exec (.iordNone p) s = .next { s with result := .byte 0xFF }

/-- R143: IOWR on the ULA port latches border from bits 2-0 of the data and ear from bit 4, both on every write; the other
bits, the high byte of the port and the rest of the state do not matter; a scanline rendered after the write has the new
border. -/
def Obligations.IowrUlaLatchesBorderAndEar : Prop :=
  ∀ (s : State) (p v : Nat), s.live = true →
    exec (.iowrUla p v) s =
      .next { s with m := { s.m with border := BitVec.ofNat 3 v, ear := v.testBit 4 }, result := .none } ∧
    ∀ (u : State) (y x : Nat), andThen (exec (.iowrUla p v) s) (exec (.line y)) = .next u →
      109824 ≤ s.buf.length → x < 352 → y < 48 ∨ 240 ≤ y ∨ x < 48 ∨ 304 ≤ x →
      u.buf[352 * y + x]? = some ((BitVec.ofNat 3 v).setWidth 8)

/-- R144: IOWR on any other port changes nothing. -/
def Obligations.IowrOtherPortsNoEffect : Prop :=
  ∀ (s : State) (p v : Nat), s.live = true →
    exec (.iowrNone p v) s = .next { s with result := .none }

/-! ### Keyboard. -/

/-- R160: KEYDN with a valid half-row clears the mask's bits in that half-row and changes nothing else. -/
def Obligations.KeydnClearsBits : Prop :=
  ∀ (s : State) (k : Word), s.Ready → k.toNat / 256 < 8 →
    ∃ t, exec (.keydnRow k) s = .next t ∧
      t = { s with m := { s.m with kb := t.m.kb }, result := .none } ∧
      ∀ i : Fin 8, t.m.kb[i] =
        if i.val = k.toNat / 256 then s.m.kb[i] &&& ~~~(BitVec.ofNat 8 k.toNat) else s.m.kb[i]

/-- R161: KEYUP with a valid half-row sets the mask's bits in that half-row and changes nothing else. -/
def Obligations.KeyupSetsBits : Prop :=
  ∀ (s : State) (k : Word), s.Ready → k.toNat / 256 < 8 →
    ∃ t, exec (.keyupRow k) s = .next t ∧
      t = { s with m := { s.m with kb := t.m.kb }, result := .none } ∧
      ∀ i : Fin 8, t.m.kb[i] =
        if i.val = k.toNat / 256 then s.m.kb[i] ||| BitVec.ofNat 8 k.toNat else s.m.kb[i]

/-- R162: KEYDN and KEYUP with a half-row of 8 or above change nothing. -/
def Obligations.InvalidHalfRowIgnored : Prop :=
  ∀ (s : State) (k : Word), s.Ready → 8 ≤ k.toNat / 256 →
    exec (.keydnIgn k) s = .next { s with result := .none } ∧
    exec (.keyupIgn k) s = .next { s with result := .none }

/-- The press-release law as the spec corrects it (42_keyboard.md, derived there; 90_conflicts.md C2): the pair leaves
`kb[r] | m`, which is the state before exactly when every key of m was released before. -/
def Obligations.PressReleaseLaw : Prop :=
  ∀ (s : State) (k : Word) (r : Fin 8), s.Ready → k.toNat / 256 = r.val →
    ∃ t u, exec (keyDown k) s = .next t ∧ exec (keyUp k) t = .next u ∧
      (∀ i : Fin 8, u.m.kb[i] = if i = r then s.m.kb[i] ||| BitVec.ofNat 8 k.toNat else s.m.kb[i]) ∧
      (u.m = s.m ↔ s.m.kb[r] &&& BitVec.ofNat 8 k.toNat = BitVec.ofNat 8 k.toNat)

/-- Key transactions commute, valid or not: two KEYDNs, two KEYUPs, and a KEYDN and a KEYUP on different half-rows or with
disjoint masks (42_keyboard.md, derived there). -/
def Obligations.KeyTransactionsCommute : Prop :=
  ∀ (s : State) (k l : Word),
    andThen (exec (keyDown k) s) (exec (keyDown l)) = andThen (exec (keyDown l) s) (exec (keyDown k)) ∧
    andThen (exec (keyUp k) s) (exec (keyUp l)) = andThen (exec (keyUp l) s) (exec (keyUp k)) ∧
    (k.toNat / 256 ≠ l.toNat / 256 ∨ BitVec.ofNat 8 k.toNat &&& BitVec.ofNat 8 l.toNat = 0 →
      andThen (exec (keyDown k) s) (exec (keyUp l)) = andThen (exec (keyUp l) s) (exec (keyDown k)))

/-! ### Renderer. -/

/-- LINE y inside a FRAME writes row y of the buffer and nothing else; the sequencer moves on to the next scanline
(43_renderer.md sections 1 and 4; LINE's algorithm is the spec's own D3, the sequencing D8). That a lone LINE runs at any
stage of a FRAME, for any y up to 311, and moves the sequencer to y + 1 is the model's choice (notes/assumptions/6.md). -/
def Obligations.LineWritesItsRowOnly : Prop :=
  ∀ (s : State) (f : Frame) (y : Nat), s.live = true → s.frame = some f → y ≤ 311 →
    109824 ≤ s.buf.length →
    ∃ t, exec (.line y) s = .next t ∧
      t = { s with buf := t.buf, frame := some { f with stage := .exec, y := y + 1 }, result := .none } ∧
      t.buf.length = s.buf.length ∧
      ∀ i, i < 352 * y ∨ 352 * y + 352 ≤ i → t.buf[i]? = s.buf[i]?

/-- R182: every pixel of a border-band scanline, and the 48 left and 48 right pixels of a bitmap-band scanline, take the
value of `border` at the time LINE y runs. -/
def Obligations.BorderPixelsTakeBorder : Prop :=
  ∀ (s t : State) (y x : Nat), exec (.line y) s = .next t → 109824 ≤ s.buf.length → x < 352 →
    y < 48 ∨ 240 ≤ y ∨ x < 48 ∨ 304 ≤ x →
    t.buf[352 * y + x]? = some (s.m.border.setWidth 8)

/-- Pixel k of character cell c of a bitmap-band scanline follows the pixel rule, from bitmap bit 7 - k, the cell's
attribute byte and the flash phase, read from memory at the time LINE y runs (43_renderer.md sections 1, 3 and 4; the
addresses are the spec's own D2 and D3). -/
def Obligations.BitmapPixelsFollowPixelRule : Prop :=
  ∀ (s t : State) (y0 c k : Nat), exec (.line (y0 + 48)) s = .next t → 109824 ≤ s.buf.length →
    y0 < 192 → c < 32 → k < 8 →
    t.buf[352 * (y0 + 48) + 48 + 8 * c + k]? =
      some (pixel
        ((memRead s.m.mem
          (0x4000 + 2048 * (y0 / 64) + 256 * (y0 % 8) + 32 * (y0 / 8 % 8) + c)).getLsbD (7 - k))
        (memRead s.m.mem (0x5800 + y0 / 8 * 32 + c))
        (s.m.frameCounter.testBit 4))

/-- The two addresses have the bit fields of the formats BMPADDR and ATTRADDR, and the 192 x 32 bitmap addresses are
pairwise different and fill 0x4000 to 0x57FF (30_encoding.md section 2; the spec's own D2 and D3). -/
def Obligations.VideoAddressLayout : Prop :=
  (∀ y0 c : Nat, y0 < 192 → c < 32 →
    bmpAddr y0 c = 0b010#3 ++ (BitVec.ofNat 8 y0).extractLsb' 6 2 ++ (BitVec.ofNat 8 y0).extractLsb' 0 3 ++
      (BitVec.ofNat 8 y0).extractLsb' 3 3 ++ BitVec.ofNat 5 c ∧
    attrAddr y0 c = 0b010110#6 ++ (BitVec.ofNat 8 y0).extractLsb' 3 5 ++ BitVec.ofNat 5 c) ∧
  (∀ a : Nat, 0x4000 ≤ a → a < 0x5800 →
    ∃ y0 c, y0 < 192 ∧ c < 32 ∧ (bmpAddr y0 c).toNat = a ∧
      ∀ y1 d, y1 < 192 → d < 32 → (bmpAddr y1 d).toNat = a → y1 = y0 ∧ d = c)

/-- R187: ink is at[2:0], paper at[5:3]; they change places when at[7] and the phase are both 1; bit 3 is at[6]; and pixel k
of a cell, at x = 48 + 8c + k, takes bitmap bit 7 - k. -/
def Obligations.PixelRule : Prop :=
  (∀ (bit : Bool) (attr : Byte) (phase : Bool),
    (pixel bit attr phase).toNat =
      (if (bit != (attr.getLsbD 7 && phase)) then attr.toNat % 8 else attr.toNat / 8 % 8) +
        8 * (attr.toNat / 64 % 2)) ∧
  ∀ (m : MachineState) (y0 c k : Nat), y0 < 192 → c < 32 → k < 8 →
    (lineRow m (y0 + 48))[48 + 8 * c + k]? =
      some (pixel ((memRead m.mem (bmpAddr y0 c).toNat).getLsbD (7 - k))
        (memRead m.mem (attrAddr y0 c).toNat) (flashPhase m))

/-- R27: the flash phase is bit 4 of the frame counter: on exactly when frameCounter / 16 is odd, so it toggles every 16
frames. -/
def Obligations.FlashPhaseIsCounterBit4 : Prop :=
  ∀ m : MachineState, (flashPhase m = true ↔ m.frameCounter / 16 % 2 = 1) ∧
    flashPhase { m with frameCounter := m.frameCounter + 16 } = !flashPhase m

/-- A rendered row depends only on y, the border, the flash phase and, in the bitmap band, the row's 32 bitmap and 32
attribute bytes (43_renderer.md section 4, derived there). -/
def Obligations.LineOutputDependsOnlyOn : Prop :=
  ∀ (s1 s2 t1 t2 : State) (y : Nat),
    exec (.line y) s1 = .next t1 → exec (.line y) s2 = .next t2 →
    109824 ≤ s1.buf.length → 109824 ≤ s2.buf.length →
    s1.m.border = s2.m.border →
    s1.m.frameCounter.testBit 4 = s2.m.frameCounter.testBit 4 →
    (48 ≤ y → y < 240 → ∀ c < 32,
      memRead s1.m.mem (bmpAddr (y - 48) c).toNat = memRead s2.m.mem (bmpAddr (y - 48) c).toNat ∧
      memRead s1.m.mem (attrAddr (y - 48) c).toNat = memRead s2.m.mem (attrAddr (y - 48) c).toNat) →
    ∀ x < 352, t1.buf[352 * y + x]? = t2.buf[352 * y + x]?

/-! ### Snapshot load. -/

/-- LOAD has a successor state exactly on the well-formed images, and refuses every other image (44_snapshot.md section 1,
the spec's own D20 and D22; under the standard layout, D17). -/
def Obligations.LoadRunsExactlyOnWellFormedImages : Prop :=
  ∀ (s : State) (b : List Byte), s.Ready → s.cfg.layout = .standard →
    let n := b.length
    let pc := (byteAt b 6).toNat + 256 * (byteAt b 7).toNat
    let f12 := if byteAt b 12 = 0xFF then 0x01 else byteAt b 12
    let e := (byteAt b 30).toNat + 256 * (byteAt b 31).toNat
    let wellFormed : Prop :=
      30 ≤ n ∧
      (pc ≠ 0 → f12.getLsbD 5 = false → n - 30 = 49152) ∧
      (pc ≠ 0 → f12.getLsbD 5 = true → ∃ out, rle true (b.drop 30) = some out ∧ out.length ≤ 49152) ∧
      (pc = 0 → 32 ≤ n ∧ 2 ≤ e ∧ 32 + e ≤ n ∧ (pageBlocks .standard n (b.drop (32 + e))).isSome = true)
    (wellFormed → ∃ t, exec (.load b) s = .next t) ∧
    (¬wellFormed → exec (.load b) s = .refused .malformedSnapshot)

/-- A classic raw image: memory holds the payload from 0x4000 up and zero below, the border is bits 3-1 of byte 12, the
engine is handed the header and the PC, and every other field of the record is at its reset value (44_snapshot.md sections
1 to 3; the spec's own D17, D18, D22 and D24; standard layout). The reset values are the spec's own D5, D6 and D7
(notes/assumptions/10.md); what exactly the engine is handed is the model's deduction (notes/assumptions/12.md). -/
def Obligations.ClassicRawImageLoads : Prop :=
  ∀ (s : State) (b : List Byte), s.Ready → s.cfg.layout = .standard →
    b.length = 30 + 49152 → ¬(byteAt b 6 = 0 ∧ byteAt b 7 = 0) → (flagByte b).getLsbD 5 = false →
    ∃ t, exec (.load b) s = .next t ∧
      t = { s with
            m := { cpu := [.setRegisters (b.take 30) (byteAt b 7 ++ byteAt b 6) ((flagByte b).getLsbD 0) [],
                           .reset],
                   mem := t.m.mem, kb := Vector.replicate 8 0xFF,
                   border := (flagByte b).extractLsb' 1 3, ear := false, frameCounter := 0, done := false },
            result := .none } ∧
      ∀ a < 65536, memRead t.m.mem a = if a < 0x4000 then 0 else byteAt b (a - 0x4000 + 30)

/-- A classic compressed image: memory holds the decompressed payload from 0x4000 up and zero elsewhere, and the rest of the
record is as after a raw image (44_snapshot.md sections 1 to 4; the spec's own D17, D18, D22, D23 and D24; standard layout).
The zero memory and the reset values are the spec's own D5, D6 and D7 (notes/assumptions/10.md); what exactly the engine is
handed is the model's deduction (notes/assumptions/12.md). -/
def Obligations.ClassicCompressedImageLoads : Prop :=
  ∀ (s : State) (b out : List Byte), s.Ready → s.cfg.layout = .standard →
    30 ≤ b.length → ¬(byteAt b 6 = 0 ∧ byteAt b 7 = 0) → (flagByte b).getLsbD 5 = true →
    rle true (b.drop 30) = some out → out.length ≤ 49152 →
    ∃ t, exec (.load b) s = .next t ∧
      t = { s with
            m := { cpu := [.setRegisters (b.take 30) (byteAt b 7 ++ byteAt b 6) ((flagByte b).getLsbD 0) [],
                           .reset],
                   mem := t.m.mem, kb := Vector.replicate 8 0xFF,
                   border := (flagByte b).extractLsb' 1 3, ear := false, frameCounter := 0, done := false },
            result := .none } ∧
      ∀ a < 65536, memRead t.m.mem a = if a < 0x4000 then 0 else byteAt out (a - 0x4000)

/-- Page 4 loads at 0x8000, page 5 at 0xC000 and page 8 at 0x4000, whether the block is raw or compressed: after the
load of an extended image of one block, memory holds its data there and zero elsewhere, the engine is handed the header,
the true PC and the extension header, the border is that of byte 12, and every other field is at its reset value
(44_snapshot.md sections 1, 2 and 5; the standard layout is the spec's own D17, notes/assumptions/11.md; byte 12 D18; the
re-initialisation D24; zero elsewhere and the other reset values D5, D6 and D7, notes/assumptions/10.md; what exactly the
engine is handed, notes/assumptions/12.md). -/
def Obligations.PagesLoadAtMappedAddresses : Prop :=
  ∀ (s : State) (hdr ext body data : List Byte) (e0 e1 l0 l1 page : Byte) (dest : Nat),
    s.Ready → s.cfg.layout = .standard →
    hdr.length = 30 → byteAt hdr 6 = 0 → byteAt hdr 7 = 0 →
    ext.length = e0.toNat + 256 * e1.toNat → 2 ≤ ext.length →
    blockData (l1 ++ l0) body = some (data, []) →
    (page, dest) ∈ [((4 : Byte), 0x8000), (5, 0xC000), (8, 0x4000)] →
    ∃ t, exec (.load (hdr ++ [e0, e1] ++ ext ++ [l0, l1, page] ++ body)) s = .next t ∧
      t = { s with m := recordAfterLoad hdr (byteAt ext 1 ++ byteAt ext 0) ext t.m.mem, result := .none } ∧
      ∀ a < 65536, memRead t.m.mem a = if dest ≤ a ∧ a < dest + data.length then byteAt data (a - dest) else 0

/-- The other pages: page 0 writes nothing; any other page id loads at address 0 under LOAD_AT_0 and writes nothing under
SKIP; the rest of the record is as after a mapped page (44_snapshot.md section 5; the spec's own D19; the standard layout is
its D17, notes/assumptions/11.md; byte 12 D18; the re-initialisation D24; zero elsewhere and the other reset values D5, D6
and D7, notes/assumptions/10.md; what exactly the engine is handed, notes/assumptions/12.md). -/
def Obligations.OtherPagesFollowPolicy : Prop :=
  ∀ (s : State) (hdr ext body data : List Byte) (e0 e1 l0 l1 page : Byte),
    s.Ready → s.cfg.layout = .standard →
    hdr.length = 30 → byteAt hdr 6 = 0 → byteAt hdr 7 = 0 →
    ext.length = e0.toNat + 256 * e1.toNat → 2 ≤ ext.length →
    blockData (l1 ++ l0) body = some (data, []) →
    page ≠ 4 → page ≠ 5 → page ≠ 8 →
    ∃ t, exec (.load (hdr ++ [e0, e1] ++ ext ++ [l0, l1, page] ++ body)) s = .next t ∧
      t = { s with m := recordAfterLoad hdr (byteAt ext 1 ++ byteAt ext 0) ext t.m.mem, result := .none } ∧
      ∀ a < 65536, memRead t.m.mem a =
        if page ≠ 0 ∧ s.cfg.unknownPage = .loadAt0 ∧ a < data.length then byteAt data a else 0

/-- The block walk, whole: it ends where no byte is left; it takes a block's three header bytes and its data, raw or
compressed, and goes on right after it; it fails on a header of fewer than three bytes, on data past the end, on a cut-off
RUN and on more than 16384 bytes of output; fuel of the stream's length is enough. And LOAD applies the blocks in file order:
for an extended image of any number of blocks, a byte is that of the LAST block that covers it, zero where none does, and
the rest of the record is as after one block (44_snapshot.md sections 1, 2 and 5; 30_encoding.md section 6; the spec's own
D17, D18, D21, D22 and D24; zero and the other reset values D5, D6 and D7, notes/assumptions/10.md; layout
notes/assumptions/11.md; what the engine is handed notes/assumptions/12.md). -/
def Obligations.BlockWalkTakesBlocksInOrder : Prop :=
  (∀ fuel, pageBlocks .standard fuel [] = some []) ∧
  (∀ (fuel : Nat) (src : List Byte), src ≠ [] → src.length < 3 → pageBlocks .standard fuel src = none) ∧
  (∀ (fuel : Nat) (l0 l1 page : Byte) (body rest : List Byte),
    (l0.toNat + 256 * l1.toNat ≠ 0xFFFF → body.length = l0.toNat + 256 * l1.toNat →
      pageBlocks .standard (fuel + 1) (l0 :: l1 :: page :: (body ++ rest)) =
        match rle false body with
        | some out =>
          if out.length ≤ 16384 then
            (pageBlocks .standard fuel rest).map ({ page := page, data := out } :: ·)
          else none
        | none => none) ∧
    (body.length = 16384 →
      pageBlocks .standard (fuel + 1) (0xFF :: 0xFF :: page :: (body ++ rest)) =
        (pageBlocks .standard fuel rest).map ({ page := page, data := body } :: ·)) ∧
    (l0.toNat + 256 * l1.toNat ≠ 0xFFFF → body.length < l0.toNat + 256 * l1.toNat →
      pageBlocks .standard fuel (l0 :: l1 :: page :: body) = none) ∧
    (body.length < 16384 → pageBlocks .standard fuel (0xFF :: 0xFF :: page :: body) = none)) ∧
  (∀ (fuel : Nat) (src : List Byte), src.length ≤ fuel →
    pageBlocks .standard fuel src = pageBlocks .standard src.length src) ∧
  ∀ (s : State) (hdr ext src : List Byte) (e0 e1 : Byte) (bs : List PageBlock),
    s.Ready → s.cfg.layout = .standard →
    hdr.length = 30 → byteAt hdr 6 = 0 → byteAt hdr 7 = 0 →
    ext.length = e0.toNat + 256 * e1.toNat → 2 ≤ ext.length →
    pageBlocks .standard src.length src = some bs →
    ∃ t, exec (.load (hdr ++ [e0, e1] ++ ext ++ src)) s = .next t ∧
      t = { s with m := recordAfterLoad hdr (byteAt ext 1 ++ byteAt ext 0) ext t.m.mem, result := .none } ∧
      (∀ (pre post : List PageBlock) (b : PageBlock) (d a : Nat), bs = pre ++ b :: post →
        pageAddr s.cfg.unknownPage b.page = some d → d ≤ a → a < d + b.data.length →
        (∀ c ∈ post, ¬c.covers s.cfg.unknownPage a) → memRead t.m.mem a = byteAt b.data (a - d)) ∧
      ∀ a < 65536, (∀ b ∈ bs, ¬b.covers s.cfg.unknownPage a) → memRead t.m.mem a = 0

/-- The RLE forms: an empty stream gives nothing, TERM ends a classic stream and no extended one, RUN expands (0 copies included), a cut-off RUN is
malformed, any other byte passes through (44_snapshot.md section 4; precedence and count 0 are the spec's own D23). -/
def Obligations.RleFormsDecode : Prop :=
  (∀ c, rle c [] = some []) ∧
  (∀ r, rle true (0x00 :: 0xED :: 0xED :: 0x00 :: r) = some []) ∧
  (∀ r, rle false (0x00 :: r) = (rle false r).map (0x00 :: ·)) ∧
  (∀ c n v r, rle c (0xED :: 0xED :: n :: v :: r) = (rle c r).map (List.replicate n.toNat v ++ ·)) ∧
  (∀ c, rle c [0xED, 0xED] = none) ∧
  (∀ c n, rle c [0xED, 0xED, n] = none) ∧
  (∀ c b r, b ≠ 0xED → b ≠ 0x00 → rle c (b :: r) = (rle c r).map (b :: ·)) ∧
  (∀ c b r, b ≠ 0xED → rle c (0xED :: b :: r) = (rle c (b :: r)).map (0xED :: ·)) ∧
  (∀ c, rle c [0xED] = some [0xED]) ∧
  (∀ r, r.take 3 ≠ [0xED, 0xED, 0x00] → rle true (0x00 :: r) = (rle true r).map (0x00 :: ·))

/-- No stale state survives a load: the record after LOAD is a function of the image and the parameters
(44_snapshot.md section 1, re-initialisation; the spec's own D24). -/
def Obligations.LoadReplacesWholeRecord : Prop :=
  ∀ (s1 s2 t1 : State) (b : List Byte), s1.Ready → s2.Ready → s1.cfg = s2.cfg →
    exec (.load b) s1 = .next t1 →
    ∃ t2, exec (.load b) s2 = .next t2 ∧ t2 = { s2 with m := t1.m, result := .none }

/-! ### The frame. -/

/-- A FRAME that does not run: a short buffer gives the exact shortfall, whatever `done` is; a set `done` gives 0; nothing
else happens and the host's buffer is left as it was (45_frame.md section 2; the spec's own D15 and D11). -/
def Obligations.FrameThatDoesNotRun : Prop :=
  ∀ (s : State) (b : List Byte), s.Ready →
    (b.length < 109824 →
      exec (.frame b) s = .next { s with buf := b, result := .count (109824 - b.length) }) ∧
    (109824 ≤ b.length → s.m.done = true →
      exec (.frame b) s = .next { s with buf := b, result := .count 0 })

/-- VSYNC inside a FRAME: one Interrupt call with the mode argument unchanged; the record sees the call's bus transactions,
and the engine is answered with the bytes of its reads; the cycles returned become the carry under IRQ_CYCLES_CHARGED, else
the carry is 0 (45_frame.md section 3; the spec's own D8, D9, D10, D26). The model's choices: where the input lists no call,
its cycles are a free value (notes/assumptions/4.md); the CPU state is a history of calls (notes/assumptions/5.md); a lone
VSYNC runs at any stage of a FRAME (notes/assumptions/6.md). -/
def Obligations.VsyncRaisesOneInterrupt : Prop :=
  ∀ (s : State) (f : Frame), s.live = true → s.frame = some f →
    exec .vsync s = .next
      { s with
        m := { (upcoming s 0).ops.foldl busEffect s.m with
               cpu := .interrupt s.cfg.irqModeArg (runBus (upcoming s 0).ops s).2 (upcoming s 0).used :: s.m.cpu },
        frame := some { f with stage := .exec,
                               carry := if s.cfg.irqCyclesCharged then ((upcoming s 0).used : Int) else 0 },
        engine := s.engine.drop 1, engineCalls := s.engineCalls + 1, result := .none }

/-- EXEC n inside a FRAME, for every integer n: one Execute call of n cycles; the record sees the call's bus transactions,
the engine is answered with the bytes of its reads, and the carry becomes the cycles used less n (45_frame.md section 4;
that n is not clamped is the spec's own D27). The model's choices: where the input lists no call, it is silent and its
cycles are a free value (notes/assumptions/4.md); the CPU state is a history of calls (notes/assumptions/5.md); EXEC of any
n runs at any stage of a FRAME (notes/assumptions/6.md). -/
def Obligations.ExecUpdatesCarry : Prop :=
  ∀ (s : State) (f : Frame) (n : Int), s.live = true → s.frame = some f →
    exec (.exec n) s = .next
      { s with
        m := { (upcoming s 0).ops.foldl busEffect s.m with
               cpu := .execute n (runBus (upcoming s 0).ops s).2 (upcoming s 0).used :: s.m.cpu },
        frame := some { f with stage := .line, carry := ((upcoming s 0).used : Int) - n },
        engine := s.engine.drop 1, engineCalls := s.engineCalls + 1, result := .none }

/-- The transactions the engine issues during a call run one after another, each as its own row of the table, against the
state the one before left, and the engine is answered with the bytes of its reads (45_frame.md section 4; that any finite
sequence is allowed is the spec's own D12). -/
def Obligations.EngineTransactionsRunAsTheirRows : Prop :=
  ∀ (s : State), s.live = true →
    (∀ op : BusOp, exec op.toInstr s = .next (busOp op s)) ∧
    (∀ ops : List BusOp,
      ops.foldl (fun o op => andThen o (exec op.toInstr)) (.next s) = .next (runBus ops s).1) ∧
    (∀ (op : BusOp) (ops : List BusOp),
      (runBus (op :: ops) s).2 = replyOf (busOp op s).result ++ (runBus ops (busOp op s)).2)

/-- A FRAME that passes its checks runs to its end, whatever the engine does: the result is 0, the counter goes up by one,
the record is otherwise what the engine's 313 calls made it (a SETDONE among them stops nothing), the buffer keeps its
length and every byte from 109824 on, and no other state changes (45_frame.md sections 1 and 5; the spec's own D4, D8, D11,
D16). -/
def Obligations.FrameRunsToCompletion : Prop :=
  ∀ (s : State) (b : List Byte), s.Ready → s.m.done = false → 109824 ≤ b.length →
    ∃ t, exec (.frame b) s = .next t ∧
      t = { s with m := t.m, buf := t.buf, result := .count 0,
                   engine := s.engine.drop 313, engineCalls := s.engineCalls + 313 } ∧
      t.m = { machineAfterCalls s 313 with cpu := t.m.cpu, frameCounter := s.m.frameCounter + 1 } ∧
      t.m.kb = s.m.kb ∧
      t.buf.length = b.length ∧ t.buf.drop 109824 = b.drop 109824

/-- Raster ordering: row y of a rendered frame is the row of scanline y drawn from the record as it stands after the bus
transactions of VSYNC and of the Execute calls of scanlines 0 to y, and no later one (20_memory.md section 8;
45_frame.md section 4). -/
def Obligations.FrameRasterOrder : Prop :=
  ∀ (s t : State) (b : List Byte), s.Ready → s.m.done = false → 109824 ≤ b.length →
    exec (.frame b) s = .next t →
    ∀ y < 312, (t.buf.drop (352 * y)).take 352 = lineRow (machineAfterCalls s (y + 2)) y

/-- The engine operations of a frame, newest first: 312 Execute calls over one Interrupt call; scanline y asks for 224 less
the carry before it (45_frame.md sections 3 and 4; the spec's own D8, D9, D10, D27). -/
def Obligations.FrameEngineProtocol : Prop :=
  ∀ (s t : State) (b : List Byte), s.Ready → s.m.done = false → 109824 ≤ b.length →
    exec (.frame b) s = .next t →
    ∃ (es : List CpuEvent) (r : List Byte),
      t.m.cpu = es ++ .interrupt s.cfg.irqModeArg r (upcoming s 0).used :: s.m.cpu ∧ es.length = 312 ∧
      ∀ y < 312, ∃ ry, es[311 - y]? =
        some (.execute (224 - carryBefore s y) ry (upcoming s (y + 1)).used)

/-- R304: the frame interrupt is the only one. A FRAME that runs raises it once, at its start, before its 312 Execute calls;
a FRAME that gives a shortfall or finds done = 1 raises none; no port, key or memory transaction and no other instruction
raises one (INIT and LOAD start a CPU state without any; EXEC and LINE are the frame's other steps). -/
def Obligations.InterruptOnlyFromFrame : Prop :=
  ∀ s t : State,
    (∀ b, exec (.frame b) s = .next t →
      (109824 ≤ b.length → s.m.done = false →
        ∃ es r u, t.m.cpu = es ++ .interrupt s.cfg.irqModeArg r u :: s.m.cpu ∧ es.length = 312 ∧
          ∀ e ∈ es, isExecute e = true) ∧
      (b.length < 109824 ∨ s.m.done = true → t.m.cpu = s.m.cpu)) ∧
    (∀ i, isInternalInstr i = false → (∀ b, i ≠ .frame b) → (∀ b, i ≠ .load b) → i ≠ .init →
      exec i s = .next t → t.m.cpu = s.m.cpu) ∧
    (∀ i, (i = .init ∨ ∃ b, i = .load b) → exec i s = .next t → ∀ e ∈ t.m.cpu, isInterrupt e = false) ∧
    (∀ n, exec (.exec n) s = .next t → ∃ r u, t.m.cpu = .execute n r u :: s.m.cpu) ∧
    (∀ y, exec (.line y) s = .next t → t.m.cpu = s.m.cpu)

/-- The cycles of a frame: the 312 Execute calls use 69888 cycles, less the carry before scanline 0, plus the final carry
(45_frame.md section 5, derived there). -/
def Obligations.CyclesOfAFrameAddUp : Prop :=
  ∀ (s t : State) (b : List Byte), s.Ready → s.m.done = false → 109824 ≤ b.length →
    exec (.frame b) s = .next t →
    ∃ req r used, t.m.cpu.head? = some (.execute req r used) ∧
      ((t.m.cpu.take 312).map executeUsed).sum = 69888 - carryBefore s 0 + ((used : Int) - req)

/-- FRAME at once is its internal steps one by one: from the state a FRAME starts in, 626 steps of the machine (VSYNC, 312
times EXEC and LINE, the end of the frame) give what exec of FRAME gives (45_frame.md sections 1 and 4; the order is
60_exceptions.md section 3; notes/assumptions/6.md). -/
def Obligations.SingleStepsRunTheFrame : Prop :=
  ∀ (s : State) (b : List Byte), s.Ready → s.m.done = false → 109824 ≤ b.length →
    Host.Core.run Sys2Proof.core 626 (openFrame b s) = exec (.frame b) s

/-! ### Lifecycle, contexts and who may issue what. -/

/-- SETDONE sets done and changes nothing else (46_lifecycle.md; the spec's own D12). -/
def Obligations.SetdoneRaisesDone : Prop :=
  ∀ s : State, s.live = true →
    exec .setdone s = .next { s with m := { s.m with done := true }, result := .none }

/-- INIT answers a fresh handle; the context behind it is at the reset values, exists and is selected; every context that
existed still does, with its record, and under the invariant none of them has the new handle (46_lifecycle.md; the reset
values are the spec's own D5, D6, D7; that INIT selects the new context and that handles count up is
notes/assumptions/8.md). -/
def Obligations.InitCreatesFreshContext : Prop :=
  ∀ s : State, s.frame = none →
    ∃ t, exec .init s = .next t ∧
      t = { s with m := .reset, live := true, handle := s.nextHandle, nextHandle := s.nextHandle + 1,
                   parked := t.parked, result := .handle s.nextHandle } ∧
      (∀ p, p ∈ t.parked ↔ p ∈ s.parked ∨ (s.live = true ∧ p = (s.handle, s.m))) ∧
      (s.Inv → ∀ p ∈ t.parked, p.1 ≠ t.handle)

/-- FREE ends the selected context and changes no other; every transaction but INIT on a context that does not exist is
refused, a second FREE included; and so it is when another context has been addressed in between and the freed handle is
addressed again (46_lifecycle.md; the spec's own D25; that a call may address a handle is notes/assumptions/8.md). -/
def Obligations.FreedContextRefusesEverything : Prop :=
  (∀ s : State, s.Ready → exec .free s = .next { s with live := false, result := .none }) ∧
  (∀ (s : State) (i : Instr), s.live = false → i ≠ .init → exec i s = .refused .freedHandle) ∧
  (∀ (s t : State) (h : Nat) (i : Instr), s.Inv → exec .free s = .next t → i ≠ .init →
    exec i (select s.handle (select h t)) = .refused .freedHandle)

/-- Each INIT creates a separate context, under the invariant with a handle no other has, and no transaction on one context
reads or writes another (46_lifecycle.md). That INIT selects the new context and that its handle is the next number is the
model's choice (notes/assumptions/8.md). -/
def Obligations.ContextsShareNothing : Prop :=
  (∀ (s t : State) (i : Instr), i ≠ .init → exec i s = .next t →
    t.parked = s.parked ∧ t.handle = s.handle ∧
      ∀ ps, exec i { s with parked := ps } = .next { t with parked := ps }) ∧
  (∀ s t : State, exec .init s = .next t →
    t.handle = s.nextHandle ∧ (∀ p ∈ s.parked, p ∈ t.parked) ∧
      (s.live = true → (s.handle, s.m) ∈ t.parked) ∧ (s.Inv → ∀ p ∈ t.parked, p.1 ≠ t.handle))

/-- Addressing a call to a parked context selects it with its record and parks the one selected before with its own;
addressing the selected one changes nothing; and under a handle no context exists under, every transaction but INIT is
refused, by itself and as the next call of a step, while every context is kept (46_lifecycle.md; 10_state.md section 1;
60_exceptions.md section 1; the spec's own D25; notes/assumptions/8.md). -/
def Obligations.AddressingSelectsContext : Prop :=
  (∀ (s : State) (h : Nat) (m : MachineState), s.Inv → (h, m) ∈ s.parked →
    (select h s).m = m ∧ (select h s).live = true ∧ (select h s).handle = h ∧
      ∀ p, p ∈ (select h s).parked ↔
        (p ∈ s.parked ∧ p.1 ≠ h) ∨ (s.live = true ∧ p = (s.handle, s.m))) ∧
  (∀ s : State, select s.handle s = s) ∧
  ∀ (s : State) (h : Nat), h ≠ s.handle → (∀ p ∈ s.parked, p.1 ≠ h) →
    (select h s).live = false ∧ (select h s).handle = h ∧
    (∀ p, p ∈ (select h s).parked ↔ p ∈ s.parked ∨ (s.live = true ∧ p = (s.handle, s.m))) ∧
    ∀ i, i ≠ .init → exec i (select h s) = .refused .freedHandle ∧
      ∀ bytes rest, s.frame = none → s.inbox = { to? := some h, bytes := bytes } :: rest →
        decode bytes = .ok i → step s = .refused .freedHandle

/-- R67: no host transaction has a step while a FRAME is in progress. -/
def Obligations.HostTransactionsWaitForFrame : Prop :=
  ∀ (s : State) (f : Frame) (i : Instr), s.live = true → s.frame = some f → isHostInstr i = true →
    exec i s = .refused .hostDuringFrame

/-- VSYNC, EXEC and LINE exist only inside FRAME and are not callable from outside (30_encoding.md section 1; the spec's own
D1). -/
def Obligations.InternalStepsOnlyInsideFrame : Prop :=
  ∀ (s : State) (i : Instr), s.Ready → isInternalInstr i = true → exec i s = .refused .outsideFrame

/-! ### Reset and invariants. -/

/-- Right after reset, field by field (70_reset_and_hazards.md section 1; the values are the spec's own D5, D6, D7). -/
def Obligations.ResetState : Prop :=
  (∀ a, memRead State.reset.m.mem a = 0x00) ∧ (∀ i : Fin 8, State.reset.m.kb[i] = 0xFF) ∧
    State.reset.m.border = 0 ∧ State.reset.m.ear = false ∧ State.reset.m.frameCounter = 0 ∧
    State.reset.m.done = false ∧ State.reset.m.cpu = [.reset] ∧ State.reset.frame = none ∧ State.reset.Ready

/-- The invariant holds right after reset. -/
def Obligations.InvariantHoldsAtReset : Prop := State.reset.Inv

/-- Every step keeps the invariant: canonical memories in every context, CPU states that begin with a reset, distinct
handles, and a frame in progress only with y at most 312 and a whole frame's buffer. -/
def Obligations.InvariantKeptByStep : Prop :=
  ∀ s t : State, s.Inv → step s = .next t → t.Inv

/-- R35: after every transaction memory holds 65536 cells of 8 bits, border is in 0..7, each of the eight half-rows in
0..255, ear is one bit, and the counter is not less than before unless the transaction is INIT or LOAD. -/
def Obligations.RecordInvariantsAfterEveryTransaction : Prop :=
  ∀ (s t : State) (i : Instr), s.m.mem.wf = true → exec i s = .next t →
    (t.m.mem.wf = true ∧ ∀ a, memRead t.m.mem (a + 65536) = memRead t.m.mem a ∧ (memRead t.m.mem a).toNat < 256) ∧
    t.m.border.toNat ≤ 7 ∧
    (t.m.kb.size = 8 ∧ ∀ j : Fin 8, (t.m.kb[j]).toNat ≤ 255) ∧
    (t.m.ear = true ∨ t.m.ear = false) ∧
    (i ≠ .init → (∀ b, i ≠ .load b) → s.m.frameCounter ≤ t.m.frameCounter)

/-- The terminal flag: only INIT and LOAD clear it, and only SETDONE sets it, issued by itself, within the one engine call of a
VSYNC or an EXEC, or within one of the 313 calls of a FRAME (10_state.md section 2; 60_exceptions.md section 10; the spec's own D11 and D12). -/
def Obligations.DoneChangesOnlyBySignalOrReset : Prop :=
  ∀ (s t : State) (i : Instr), exec i s = .next t →
    (s.m.done = true → i ≠ .init → (∀ b, i ≠ .load b) → t.m.done = true) ∧
    (s.m.done = false → t.m.done = true →
      i = .setdone ∨
        ((i = .vsync ∨ ∃ n, i = .exec n) ∧ BusOp.setdone ∈ (upcoming s 0).ops) ∨
        ((∃ b, i = .frame b) ∧ ∃ k < 313, BusOp.setdone ∈ (upcoming s k).ops))
end

