-- ==== Sys2Proof/Laws/Operands.lean ====
section
/-! SUPPORT. What the operand fields are, as arithmetic on the presented value. -/

namespace Sys2Proof.Machine

/-- R140: the port decoder looks at the low byte only. -/
theorem isUla_iff (p : Nat) : isUla p = true ↔ p % 256 = 0xFE := by
  simp only [isUla, portOf, beq_iff_eq, ← BitVec.toNat_inj, BitVec.extractLsb'_toNat, BitVec.toNat_ofNat,
    Nat.shiftRight_zero]
  omega

theorem isUlaPort_iff (p : Nat) : isUlaPort p = true ↔ p % 256 = 0xFE := by
  have h : (p % 65536) &&& 255 = p % 65536 % 256 := Nat.and_two_pow_sub_one_eq_mod _ 8
  have e : (BitVec.ofNat 16 p &&& 0x00FF).toNat = p % 65536 &&& 255 := rfl
  simp only [isUlaPort, matchesRow, beq_iff_eq, ← BitVec.toNat_inj]
  rw [e, h, show (0x00FE : Word).toNat = 254 from rfl]
  omega

/-- R86: a key code's half-row is valid exactly when it is below 8. -/
theorem isRowCode_iff (k : Word) : isRowCode k = true ↔ k.toNat / 256 < 8 := by
  have hk := k.isLt
  have h : k.toNat &&& 0xF800 = k.toNat / 2048 * 2048 := by
    have := Nat.and_two_pow_sub_one_eq_mod (k.toNat / 2048) 5
    have e : k.toNat &&& 0xF800 = ((k.toNat / 2048) &&& 31) * 2048 := by
      apply Nat.eq_of_testBit_eq
      intro i
      rw [Nat.testBit_and, show (2048 : Nat) = 2 ^ 11 from rfl, Nat.testBit_mul_two_pow, Nat.testBit_and,
        Nat.testBit_div_two_pow, show (0xF800 : Nat) = 31 * 2 ^ 11 from rfl, Nat.testBit_mul_two_pow]
      by_cases hi : 11 ≤ i
      · simp [hi, Nat.sub_add_cancel hi]
      · simp [hi]
    rw [e, show (31 : Nat) = 2 ^ 5 - 1 from rfl, this]
    omega
  have e : (k &&& 0xF800).toNat = k.toNat &&& 0xF800 := rfl
  simp only [isRowCode, matchesRow, beq_iff_eq, ← BitVec.toNat_inj]
  rw [e, h, show (0x0000 : Word).toNat = 0 from rfl]
  omega

theorem keyRow_eq (k : Word) : keyRow k = k.toNat / 256 := by
  have hk := k.isLt
  simp only [keyRow, BitVec.extractLsb'_toNat, Nat.shiftRight_eq_div_pow]
  omega

theorem ulaBorder_eq (v : Nat) : ulaBorder v = BitVec.ofNat 3 v := by
  simp only [ulaBorder, dataOf, ← BitVec.toNat_inj, BitVec.extractLsb'_toNat, BitVec.toNat_ofNat,
    Nat.shiftRight_zero]
  omega

theorem ulaEar_eq (v : Nat) : ulaEar v = v.testBit 4 := by
  rw [ulaEar, dataOf, BitVec.getLsbD_ofNat]
  simp

end Sys2Proof.Machine
end

