-- ==== Sys2Proof/Laws/Decode.lean ====
section
/-! SUPPORT. The wire form's fields read back what was written. -/

namespace Sys2Proof

/-- A written number reads back, whatever bytes follow it. -/
theorem readVar_writeVarFuel (fuel n : Nat) (h : n ≤ fuel) (rest : List Byte) :
    readVar (writeVarFuel fuel n ++ rest) = (n, rest) := by
  induction fuel generalizing n with
  | zero =>
    obtain rfl : n = 0 := by omega
    simp [writeVarFuel, readVar]
  | succ fuel ih =>
    unfold writeVarFuel
    split
    next hn =>
      have hm : n % 256 = n := by omega
      simp [readVar, hm, hn]
    next hn =>
      have hm : (128 + n % 128) % 256 = 128 + n % 128 := by omega
      have ih' := ih (n / 128) (by omega)
      simp only [List.cons_append, readVar, BitVec.toNat_ofNat, Nat.reducePow, hm, ih']
      rw [if_neg (by omega)]
      congr 1
      omega

theorem readVar_writeVar (n : Nat) (rest : List Byte) : readVar (writeVar n ++ rest) = (n, rest) :=
  readVar_writeVarFuel n n (le_refl n) rest

theorem readVar_writeVar_nil (n : Nat) : readVar (writeVar n) = (n, []) := by
  simpa using readVar_writeVar n []

theorem natToInt_intToNat (n : Int) : natToInt (intToNat n) = n := by
  cases n with
  | ofNat n => simp [intToNat, natToInt]
  | negSucc n =>
    have h1 : (2 * n + 1) % 2 ≠ 0 := by omega
    have h2 : (2 * n + 1) / 2 = n := by omega
    simp [intToNat, natToInt, h2]

/-- The operand word of an encoded head. -/
@[simp] theorem packetWord_encodeHead (w : Word) (c : Channel) (rest : List Byte) :
    packetWord (encodeHead w c ++ rest) = w := by
  simp only [packetWord, encodeHead, byteAt, List.cons_append, List.nil_append, List.getElem?_cons_succ,
    List.getElem?_cons_zero, Option.getD_some]
  ext i hi
  simp only [BitVec.getElem_append, BitVec.getElem_extractLsb']
  split
  · simp [BitVec.getLsbD_eq_getElem hi]
  · rw [show 8 + (i - 8) = i by omega, BitVec.getLsbD_eq_getElem hi]

/-- The channel of an encoded head. -/
@[simp] theorem channelOf_encodeHead (w v : Word) (c : Channel) (rest : List Byte) :
    channelOf (byteAt (encodeHead w c ++ rest) 2) v = some c := by
  cases c <;> rfl

@[simp] theorem drop_encodeHead (w : Word) (c : Channel) (rest : List Byte) :
    (encodeHead w c ++ rest).drop 3 = rest := rfl

/-- Decoding an encoded head decodes the rest on its channel. -/
theorem decode_encodeHead (w : Word) (c : Channel) (rest : List Byte) :
    decode (encodeHead w c ++ rest) = decodeOn c w rest := by
  simp [decode]

/-- An address comes back from its word and the part above it. -/
theorem addr_split (a : Nat) : (BitVec.ofNat 16 a).toNat + 65536 * (a / 65536) = a := by
  simp only [BitVec.toNat_ofNat]; omega

end Sys2Proof
end

