-- ==== Sys2Proof/Laws/Memory.lean ====
section
/-!
SUPPORT. The laws of the sparse memory: every operation keeps the canonical form, a read after a write gives the value
written at that cell and the old value elsewhere, and memories in canonical form that read alike are equal.
-/

namespace Sys2Proof.Machine

theorem wfFrom_cons {lo a : Nat} {v : Byte} {m : Memory} :
    Memory.wfFrom lo ((a, v) :: m) = true ↔
      lo ≤ a ∧ a < 65536 ∧ v ≠ 0#8 ∧ Memory.wfFrom (a + 1) m = true := by
  simp [Memory.wfFrom, and_assoc]

theorem wfFrom_lower {lo hi : Nat} {m : Memory} (h : Memory.wfFrom hi m = true) (hl : lo ≤ hi) :
    Memory.wfFrom lo m = true := by
  cases m with
  | nil => rfl
  | cons p m =>
    obtain ⟨a, v⟩ := p
    rw [wfFrom_cons] at h ⊢
    exact ⟨hl.trans h.1, h.2⟩

/-- Nothing is listed below the bound. -/
theorem memGet_below {lo a : Nat} {m : Memory} (h : Memory.wfFrom lo m = true) (ha : a < lo) :
    memGet m a = 0#8 := by
  induction m generalizing lo with
  | nil => rfl
  | cons p m ih =>
    obtain ⟨k, v⟩ := p
    rw [wfFrom_cons] at h
    have hk : k ≠ a := by omega
    simpa [memGet, hk] using ih h.2.2.2 (by omega)

theorem memPut_wfFrom {lo a : Nat} {m : Memory} (v : Byte) (h : Memory.wfFrom lo m = true)
    (hl : lo ≤ a) (ha : a < 65536) : Memory.wfFrom lo (memPut m a v) = true := by
  induction m generalizing lo with
  | nil =>
    by_cases hv : v = 0#8
    · simp [memPut, hv, Memory.wfFrom]
    · simp [memPut, hv, Memory.wfFrom, hl, ha]
  | cons p m ih =>
    obtain ⟨k, w⟩ := p
    have h' := wfFrom_cons.mp h
    unfold memPut
    split_ifs with hk he hv hv
    · exact wfFrom_cons.mpr ⟨h'.1, h'.2.1, h'.2.2.1, ih h'.2.2.2 (by omega)⟩
    · exact wfFrom_lower h'.2.2.2 (by omega)
    · exact wfFrom_cons.mpr ⟨hl, ha, hv, he ▸ h'.2.2.2⟩
    · exact h
    · exact wfFrom_cons.mpr ⟨hl, ha, hv, wfFrom_cons.mpr ⟨by omega, h'.2⟩⟩

theorem memGet_memPut {lo a b : Nat} {m : Memory} (v : Byte) (h : Memory.wfFrom lo m = true) :
    memGet (memPut m a v) b = if b = a then v else memGet m b := by
  induction m generalizing lo with
  | nil =>
    by_cases hv : v = 0#8 <;> simp [memPut, memGet, hv, eq_comm]
  | cons p m ih =>
    obtain ⟨k, w⟩ := p
    have h' := wfFrom_cons.mp h
    rcases lt_trichotomy k a with hk | hk | hk
    · simp only [memPut, if_pos hk, memGet, ih h'.2.2.2]
      split_ifs <;> first | rfl | omega
    · subst hk
      by_cases hv : v = 0#8
      · simp only [memPut, lt_irrefl, if_false, if_true, if_pos hv, memGet]
        by_cases hb : b = k
        · rw [if_pos hb, hv, hb, memGet_below h'.2.2.2 (Nat.lt_succ_self k)]
        · rw [if_neg hb, if_neg (Ne.symm hb)]
      · simp only [memPut, lt_irrefl, if_false, if_true, if_neg hv, memGet]
        split_ifs <;> first | rfl | omega
    · have hlow : memGet ((k, w) :: m) a = 0#8 :=
        memGet_below (wfFrom_cons.mpr ⟨le_refl k, h'.2⟩) hk
      have hput : memPut ((k, w) :: m) a v = if v = 0#8 then (k, w) :: m else (a, v) :: (k, w) :: m := by
        rw [memPut, if_neg (by omega), if_neg (by omega)]
      rw [hput]
      by_cases hb : b = a
      · subst hb
        rw [if_pos rfl]
        split_ifs with hv
        · rw [hlow, hv]
        · simp [memGet]
      · rw [if_neg hb]
        split_ifs with hv
        · rfl
        · rw [memGet, if_neg (Ne.symm hb)]

/-- Canonical memories that read alike at every address are equal. -/
theorem memory_ext {lo : Nat} {m n : Memory} (hm : Memory.wfFrom lo m = true)
    (hn : Memory.wfFrom lo n = true) (h : ∀ a, memGet m a = memGet n a) : m = n := by
  induction m generalizing lo n with
  | nil =>
    cases n with
    | nil => rfl
    | cons q n =>
      obtain ⟨k, v⟩ := q
      have hn' := wfFrom_cons.mp hn
      exact absurd (by simpa [memGet] using (h k).symm) hn'.2.2.1
  | cons p m ih =>
    obtain ⟨k, v⟩ := p
    have hm' := wfFrom_cons.mp hm
    cases n with
    | nil => exact absurd (by simpa [memGet] using h k) hm'.2.2.1
    | cons q n =>
      obtain ⟨l, w⟩ := q
      have hn' := wfFrom_cons.mp hn
      have hkl : k = l := by
        rcases lt_trichotomy k l with hlt | heq | hgt
        · have := h k
          rw [memGet_below (lo := l) (wfFrom_cons.mpr ⟨le_refl l, hn'.2⟩) hlt] at this
          exact absurd (by simpa [memGet] using this) hm'.2.2.1
        · exact heq
        · have := h l
          rw [memGet_below (lo := k) (wfFrom_cons.mpr ⟨le_refl k, hm'.2⟩) hgt] at this
          exact absurd (by simpa [memGet] using this.symm) hn'.2.2.1
      subst hkl
      have hv : v = w := by simpa [memGet] using h k
      subst hv
      congr 1
      refine ih hm'.2.2.2 hn'.2.2.2 fun a => ?_
      by_cases ha : k = a
      · subst ha
        rw [memGet_below hm'.2.2.2 (Nat.lt_succ_self _), memGet_below hn'.2.2.2 (Nat.lt_succ_self _)]
      · simpa [memGet, ha] using h a

theorem addrOf_lt (a : Nat) : addrOf a < 65536 := Nat.mod_lt _ (by decide)

/-- A write keeps the canonical form. -/
theorem memWrite_wf {m : Memory} (h : m.wf = true) (a : Nat) (v : Byte) : (memWrite m a v).wf = true :=
  memPut_wfFrom v h (Nat.zero_le _) (addrOf_lt a)

theorem memGet_memWrite {m : Memory} (h : m.wf = true) (a x : Nat) (v : Byte) :
    memGet (memWrite m a v) x = if x = addrOf a then v else memGet m x :=
  memGet_memPut v h

/-- A read after a write, at every address. -/
theorem memRead_memWrite {m : Memory} (h : m.wf = true) (a b : Nat) (v : Byte) :
    memRead (memWrite m a v) b = if b % 65536 = a % 65536 then v else memRead m b :=
  memGet_memPut v h

/-- A read depends on the address modulo 65536 only. -/
theorem memRead_mod (m : Memory) (a : Nat) : memRead m (a % 65536) = memRead m a := by
  simp [memRead, addrOf]

/-- Reset memory reads as zero everywhere. -/
@[simp] theorem memRead_nil (a : Nat) : memRead [] a = 0#8 := rfl

theorem memWriteBytes_wf {m : Memory} (h : m.wf = true) (a : Nat) (bs : List Byte) :
    (memWriteBytes m a bs).wf = true := by
  induction bs generalizing a with
  | nil => exact h
  | cons b bs ih => exact memWrite_wf (ih (a + 1)) a b

/-- A read after a run of bytes that stays inside the address space. -/
theorem memRead_memWriteBytes {m : Memory} (h : m.wf = true) (a : Nat) (bs : List Byte)
    (hf : a + bs.length ≤ 65536) {x : Nat} (hx : x < 65536) :
    memRead (memWriteBytes m a bs) x =
      if a ≤ x ∧ x < a + bs.length then bs[x - a]?.getD 0#8 else memRead m x := by
  induction bs generalizing a with
  | nil =>
    have : ¬(a ≤ x ∧ x < a + ([] : List Byte).length) := by simp
    simp only [this, if_false, memWriteBytes]
  | cons b bs ih =>
    simp only [List.length_cons] at hf ⊢
    rw [memWriteBytes, memRead_memWrite (memWriteBytes_wf h (a + 1) bs), Nat.mod_eq_of_lt hx,
      Nat.mod_eq_of_lt (show a < 65536 by omega), ih (a + 1) (by omega)]
    by_cases hxa : x = a
    · subst hxa; simp
    · rw [if_neg hxa]
      by_cases hin : a + 1 ≤ x ∧ x < a + 1 + bs.length
      · have h2 : a ≤ x ∧ x < a + (bs.length + 1) := by omega
        have h3 : x - a = x - (a + 1) + 1 := by omega
        rw [if_pos hin, if_pos h2, h3, List.getElem?_cons_succ]
      · have h2 : ¬(a ≤ x ∧ x < a + (bs.length + 1)) := by omega
        rw [if_neg hin, if_neg h2]

/-- Writes to different cells commute. -/
theorem memWrite_comm {m : Memory} (h : m.wf = true) {a b : Nat} (hab : a % 65536 ≠ b % 65536) (v w : Byte) :
    memWrite (memWrite m a v) b w = memWrite (memWrite m b w) a v := by
  refine memory_ext (memWrite_wf (memWrite_wf h a v) b w) (memWrite_wf (memWrite_wf h b w) a v) fun x => ?_
  have hne : addrOf a ≠ addrOf b := hab
  rw [memGet_memWrite (memWrite_wf h a v), memGet_memWrite (memWrite_wf h b w), memGet_memWrite h,
    memGet_memWrite h]
  split_ifs <;> simp_all

/-- Of two writes to one cell the second stays. -/
theorem memWrite_memWrite {m : Memory} (h : m.wf = true) {a b : Nat} (hab : a % 65536 = b % 65536) (v w : Byte) :
    memWrite (memWrite m a v) b w = memWrite m b w := by
  refine memory_ext (memWrite_wf (memWrite_wf h a v) b w) (memWrite_wf h b w) fun x => ?_
  have he : addrOf a = addrOf b := hab
  rw [memGet_memWrite (memWrite_wf h a v), memGet_memWrite h, memGet_memWrite h]
  split_ifs <;> simp_all

end Sys2Proof.Machine
end

