-- ==== Sys2Proof/Laws/State.lean ====
section
/-! SUPPORT. One lemma per field per update of State, true by rfl, so that no proof unfolds a record update. -/

namespace Sys2Proof.Machine

variable (s : State)

@[simp] theorem setCpu_m_cpu (x : List CpuEvent) : (s.setCpu x).m.cpu = x := rfl
@[simp] theorem setCpu_m_mem (x : List CpuEvent) : (s.setCpu x).m.mem = s.m.mem := rfl
@[simp] theorem setCpu_m_kb (x : List CpuEvent) : (s.setCpu x).m.kb = s.m.kb := rfl
@[simp] theorem setCpu_m_border (x : List CpuEvent) : (s.setCpu x).m.border = s.m.border := rfl
@[simp] theorem setCpu_m_ear (x : List CpuEvent) : (s.setCpu x).m.ear = s.m.ear := rfl
@[simp] theorem setCpu_m_frameCounter (x : List CpuEvent) : (s.setCpu x).m.frameCounter = s.m.frameCounter := rfl
@[simp] theorem setCpu_m_done (x : List CpuEvent) : (s.setCpu x).m.done = s.m.done := rfl
@[simp] theorem setCpu_live (x : List CpuEvent) : (s.setCpu x).live = s.live := rfl
@[simp] theorem setCpu_handle (x : List CpuEvent) : (s.setCpu x).handle = s.handle := rfl
@[simp] theorem setCpu_parked (x : List CpuEvent) : (s.setCpu x).parked = s.parked := rfl
@[simp] theorem setCpu_nextHandle (x : List CpuEvent) : (s.setCpu x).nextHandle = s.nextHandle := rfl
@[simp] theorem setCpu_frame (x : List CpuEvent) : (s.setCpu x).frame = s.frame := rfl
@[simp] theorem setCpu_buf (x : List CpuEvent) : (s.setCpu x).buf = s.buf := rfl
@[simp] theorem setCpu_result (x : List CpuEvent) : (s.setCpu x).result = s.result := rfl
@[simp] theorem setCpu_inbox (x : List CpuEvent) : (s.setCpu x).inbox = s.inbox := rfl
@[simp] theorem setCpu_engine (x : List CpuEvent) : (s.setCpu x).engine = s.engine := rfl
@[simp] theorem setCpu_engineCalls (x : List CpuEvent) : (s.setCpu x).engineCalls = s.engineCalls := rfl
@[simp] theorem setCpu_cfg (x : List CpuEvent) : (s.setCpu x).cfg = s.cfg := rfl

@[simp] theorem setMem_m_cpu (x : Memory) : (s.setMem x).m.cpu = s.m.cpu := rfl
@[simp] theorem setMem_m_mem (x : Memory) : (s.setMem x).m.mem = x := rfl
@[simp] theorem setMem_m_kb (x : Memory) : (s.setMem x).m.kb = s.m.kb := rfl
@[simp] theorem setMem_m_border (x : Memory) : (s.setMem x).m.border = s.m.border := rfl
@[simp] theorem setMem_m_ear (x : Memory) : (s.setMem x).m.ear = s.m.ear := rfl
@[simp] theorem setMem_m_frameCounter (x : Memory) : (s.setMem x).m.frameCounter = s.m.frameCounter := rfl
@[simp] theorem setMem_m_done (x : Memory) : (s.setMem x).m.done = s.m.done := rfl
@[simp] theorem setMem_live (x : Memory) : (s.setMem x).live = s.live := rfl
@[simp] theorem setMem_handle (x : Memory) : (s.setMem x).handle = s.handle := rfl
@[simp] theorem setMem_parked (x : Memory) : (s.setMem x).parked = s.parked := rfl
@[simp] theorem setMem_nextHandle (x : Memory) : (s.setMem x).nextHandle = s.nextHandle := rfl
@[simp] theorem setMem_frame (x : Memory) : (s.setMem x).frame = s.frame := rfl
@[simp] theorem setMem_buf (x : Memory) : (s.setMem x).buf = s.buf := rfl
@[simp] theorem setMem_result (x : Memory) : (s.setMem x).result = s.result := rfl
@[simp] theorem setMem_inbox (x : Memory) : (s.setMem x).inbox = s.inbox := rfl
@[simp] theorem setMem_engine (x : Memory) : (s.setMem x).engine = s.engine := rfl
@[simp] theorem setMem_engineCalls (x : Memory) : (s.setMem x).engineCalls = s.engineCalls := rfl
@[simp] theorem setMem_cfg (x : Memory) : (s.setMem x).cfg = s.cfg := rfl

@[simp] theorem setKb_m_cpu (x : Vector Byte 8) : (s.setKb x).m.cpu = s.m.cpu := rfl
@[simp] theorem setKb_m_mem (x : Vector Byte 8) : (s.setKb x).m.mem = s.m.mem := rfl
@[simp] theorem setKb_m_kb (x : Vector Byte 8) : (s.setKb x).m.kb = x := rfl
@[simp] theorem setKb_m_border (x : Vector Byte 8) : (s.setKb x).m.border = s.m.border := rfl
@[simp] theorem setKb_m_ear (x : Vector Byte 8) : (s.setKb x).m.ear = s.m.ear := rfl
@[simp] theorem setKb_m_frameCounter (x : Vector Byte 8) : (s.setKb x).m.frameCounter = s.m.frameCounter := rfl
@[simp] theorem setKb_m_done (x : Vector Byte 8) : (s.setKb x).m.done = s.m.done := rfl
@[simp] theorem setKb_live (x : Vector Byte 8) : (s.setKb x).live = s.live := rfl
@[simp] theorem setKb_handle (x : Vector Byte 8) : (s.setKb x).handle = s.handle := rfl
@[simp] theorem setKb_parked (x : Vector Byte 8) : (s.setKb x).parked = s.parked := rfl
@[simp] theorem setKb_nextHandle (x : Vector Byte 8) : (s.setKb x).nextHandle = s.nextHandle := rfl
@[simp] theorem setKb_frame (x : Vector Byte 8) : (s.setKb x).frame = s.frame := rfl
@[simp] theorem setKb_buf (x : Vector Byte 8) : (s.setKb x).buf = s.buf := rfl
@[simp] theorem setKb_result (x : Vector Byte 8) : (s.setKb x).result = s.result := rfl
@[simp] theorem setKb_inbox (x : Vector Byte 8) : (s.setKb x).inbox = s.inbox := rfl
@[simp] theorem setKb_engine (x : Vector Byte 8) : (s.setKb x).engine = s.engine := rfl
@[simp] theorem setKb_engineCalls (x : Vector Byte 8) : (s.setKb x).engineCalls = s.engineCalls := rfl
@[simp] theorem setKb_cfg (x : Vector Byte 8) : (s.setKb x).cfg = s.cfg := rfl

@[simp] theorem setBorder_m_cpu (x : BitVec 3) : (s.setBorder x).m.cpu = s.m.cpu := rfl
@[simp] theorem setBorder_m_mem (x : BitVec 3) : (s.setBorder x).m.mem = s.m.mem := rfl
@[simp] theorem setBorder_m_kb (x : BitVec 3) : (s.setBorder x).m.kb = s.m.kb := rfl
@[simp] theorem setBorder_m_border (x : BitVec 3) : (s.setBorder x).m.border = x := rfl
@[simp] theorem setBorder_m_ear (x : BitVec 3) : (s.setBorder x).m.ear = s.m.ear := rfl
@[simp] theorem setBorder_m_frameCounter (x : BitVec 3) : (s.setBorder x).m.frameCounter = s.m.frameCounter := rfl
@[simp] theorem setBorder_m_done (x : BitVec 3) : (s.setBorder x).m.done = s.m.done := rfl
@[simp] theorem setBorder_live (x : BitVec 3) : (s.setBorder x).live = s.live := rfl
@[simp] theorem setBorder_handle (x : BitVec 3) : (s.setBorder x).handle = s.handle := rfl
@[simp] theorem setBorder_parked (x : BitVec 3) : (s.setBorder x).parked = s.parked := rfl
@[simp] theorem setBorder_nextHandle (x : BitVec 3) : (s.setBorder x).nextHandle = s.nextHandle := rfl
@[simp] theorem setBorder_frame (x : BitVec 3) : (s.setBorder x).frame = s.frame := rfl
@[simp] theorem setBorder_buf (x : BitVec 3) : (s.setBorder x).buf = s.buf := rfl
@[simp] theorem setBorder_result (x : BitVec 3) : (s.setBorder x).result = s.result := rfl
@[simp] theorem setBorder_inbox (x : BitVec 3) : (s.setBorder x).inbox = s.inbox := rfl
@[simp] theorem setBorder_engine (x : BitVec 3) : (s.setBorder x).engine = s.engine := rfl
@[simp] theorem setBorder_engineCalls (x : BitVec 3) : (s.setBorder x).engineCalls = s.engineCalls := rfl
@[simp] theorem setBorder_cfg (x : BitVec 3) : (s.setBorder x).cfg = s.cfg := rfl

@[simp] theorem setEar_m_cpu (x : Bool) : (s.setEar x).m.cpu = s.m.cpu := rfl
@[simp] theorem setEar_m_mem (x : Bool) : (s.setEar x).m.mem = s.m.mem := rfl
@[simp] theorem setEar_m_kb (x : Bool) : (s.setEar x).m.kb = s.m.kb := rfl
@[simp] theorem setEar_m_border (x : Bool) : (s.setEar x).m.border = s.m.border := rfl
@[simp] theorem setEar_m_ear (x : Bool) : (s.setEar x).m.ear = x := rfl
@[simp] theorem setEar_m_frameCounter (x : Bool) : (s.setEar x).m.frameCounter = s.m.frameCounter := rfl
@[simp] theorem setEar_m_done (x : Bool) : (s.setEar x).m.done = s.m.done := rfl
@[simp] theorem setEar_live (x : Bool) : (s.setEar x).live = s.live := rfl
@[simp] theorem setEar_handle (x : Bool) : (s.setEar x).handle = s.handle := rfl
@[simp] theorem setEar_parked (x : Bool) : (s.setEar x).parked = s.parked := rfl
@[simp] theorem setEar_nextHandle (x : Bool) : (s.setEar x).nextHandle = s.nextHandle := rfl
@[simp] theorem setEar_frame (x : Bool) : (s.setEar x).frame = s.frame := rfl
@[simp] theorem setEar_buf (x : Bool) : (s.setEar x).buf = s.buf := rfl
@[simp] theorem setEar_result (x : Bool) : (s.setEar x).result = s.result := rfl
@[simp] theorem setEar_inbox (x : Bool) : (s.setEar x).inbox = s.inbox := rfl
@[simp] theorem setEar_engine (x : Bool) : (s.setEar x).engine = s.engine := rfl
@[simp] theorem setEar_engineCalls (x : Bool) : (s.setEar x).engineCalls = s.engineCalls := rfl
@[simp] theorem setEar_cfg (x : Bool) : (s.setEar x).cfg = s.cfg := rfl

@[simp] theorem setFrameCounter_m_cpu (x : Nat) : (s.setFrameCounter x).m.cpu = s.m.cpu := rfl
@[simp] theorem setFrameCounter_m_mem (x : Nat) : (s.setFrameCounter x).m.mem = s.m.mem := rfl
@[simp] theorem setFrameCounter_m_kb (x : Nat) : (s.setFrameCounter x).m.kb = s.m.kb := rfl
@[simp] theorem setFrameCounter_m_border (x : Nat) : (s.setFrameCounter x).m.border = s.m.border := rfl
@[simp] theorem setFrameCounter_m_ear (x : Nat) : (s.setFrameCounter x).m.ear = s.m.ear := rfl
@[simp] theorem setFrameCounter_m_frameCounter (x : Nat) : (s.setFrameCounter x).m.frameCounter = x := rfl
@[simp] theorem setFrameCounter_m_done (x : Nat) : (s.setFrameCounter x).m.done = s.m.done := rfl
@[simp] theorem setFrameCounter_live (x : Nat) : (s.setFrameCounter x).live = s.live := rfl
@[simp] theorem setFrameCounter_handle (x : Nat) : (s.setFrameCounter x).handle = s.handle := rfl
@[simp] theorem setFrameCounter_parked (x : Nat) : (s.setFrameCounter x).parked = s.parked := rfl
@[simp] theorem setFrameCounter_nextHandle (x : Nat) : (s.setFrameCounter x).nextHandle = s.nextHandle := rfl
@[simp] theorem setFrameCounter_frame (x : Nat) : (s.setFrameCounter x).frame = s.frame := rfl
@[simp] theorem setFrameCounter_buf (x : Nat) : (s.setFrameCounter x).buf = s.buf := rfl
@[simp] theorem setFrameCounter_result (x : Nat) : (s.setFrameCounter x).result = s.result := rfl
@[simp] theorem setFrameCounter_inbox (x : Nat) : (s.setFrameCounter x).inbox = s.inbox := rfl
@[simp] theorem setFrameCounter_engine (x : Nat) : (s.setFrameCounter x).engine = s.engine := rfl
@[simp] theorem setFrameCounter_engineCalls (x : Nat) : (s.setFrameCounter x).engineCalls = s.engineCalls := rfl
@[simp] theorem setFrameCounter_cfg (x : Nat) : (s.setFrameCounter x).cfg = s.cfg := rfl

@[simp] theorem setDone_m_cpu (x : Bool) : (s.setDone x).m.cpu = s.m.cpu := rfl
@[simp] theorem setDone_m_mem (x : Bool) : (s.setDone x).m.mem = s.m.mem := rfl
@[simp] theorem setDone_m_kb (x : Bool) : (s.setDone x).m.kb = s.m.kb := rfl
@[simp] theorem setDone_m_border (x : Bool) : (s.setDone x).m.border = s.m.border := rfl
@[simp] theorem setDone_m_ear (x : Bool) : (s.setDone x).m.ear = s.m.ear := rfl
@[simp] theorem setDone_m_frameCounter (x : Bool) : (s.setDone x).m.frameCounter = s.m.frameCounter := rfl
@[simp] theorem setDone_m_done (x : Bool) : (s.setDone x).m.done = x := rfl
@[simp] theorem setDone_live (x : Bool) : (s.setDone x).live = s.live := rfl
@[simp] theorem setDone_handle (x : Bool) : (s.setDone x).handle = s.handle := rfl
@[simp] theorem setDone_parked (x : Bool) : (s.setDone x).parked = s.parked := rfl
@[simp] theorem setDone_nextHandle (x : Bool) : (s.setDone x).nextHandle = s.nextHandle := rfl
@[simp] theorem setDone_frame (x : Bool) : (s.setDone x).frame = s.frame := rfl
@[simp] theorem setDone_buf (x : Bool) : (s.setDone x).buf = s.buf := rfl
@[simp] theorem setDone_result (x : Bool) : (s.setDone x).result = s.result := rfl
@[simp] theorem setDone_inbox (x : Bool) : (s.setDone x).inbox = s.inbox := rfl
@[simp] theorem setDone_engine (x : Bool) : (s.setDone x).engine = s.engine := rfl
@[simp] theorem setDone_engineCalls (x : Bool) : (s.setDone x).engineCalls = s.engineCalls := rfl
@[simp] theorem setDone_cfg (x : Bool) : (s.setDone x).cfg = s.cfg := rfl

@[simp] theorem setM_m (x : MachineState) : (s.setM x).m = x := rfl
@[simp] theorem setM_live (x : MachineState) : (s.setM x).live = s.live := rfl
@[simp] theorem setM_handle (x : MachineState) : (s.setM x).handle = s.handle := rfl
@[simp] theorem setM_parked (x : MachineState) : (s.setM x).parked = s.parked := rfl
@[simp] theorem setM_nextHandle (x : MachineState) : (s.setM x).nextHandle = s.nextHandle := rfl
@[simp] theorem setM_frame (x : MachineState) : (s.setM x).frame = s.frame := rfl
@[simp] theorem setM_buf (x : MachineState) : (s.setM x).buf = s.buf := rfl
@[simp] theorem setM_result (x : MachineState) : (s.setM x).result = s.result := rfl
@[simp] theorem setM_inbox (x : MachineState) : (s.setM x).inbox = s.inbox := rfl
@[simp] theorem setM_engine (x : MachineState) : (s.setM x).engine = s.engine := rfl
@[simp] theorem setM_engineCalls (x : MachineState) : (s.setM x).engineCalls = s.engineCalls := rfl
@[simp] theorem setM_cfg (x : MachineState) : (s.setM x).cfg = s.cfg := rfl

@[simp] theorem setLive_m (x : Bool) : (s.setLive x).m = s.m := rfl
@[simp] theorem setLive_live (x : Bool) : (s.setLive x).live = x := rfl
@[simp] theorem setLive_handle (x : Bool) : (s.setLive x).handle = s.handle := rfl
@[simp] theorem setLive_parked (x : Bool) : (s.setLive x).parked = s.parked := rfl
@[simp] theorem setLive_nextHandle (x : Bool) : (s.setLive x).nextHandle = s.nextHandle := rfl
@[simp] theorem setLive_frame (x : Bool) : (s.setLive x).frame = s.frame := rfl
@[simp] theorem setLive_buf (x : Bool) : (s.setLive x).buf = s.buf := rfl
@[simp] theorem setLive_result (x : Bool) : (s.setLive x).result = s.result := rfl
@[simp] theorem setLive_inbox (x : Bool) : (s.setLive x).inbox = s.inbox := rfl
@[simp] theorem setLive_engine (x : Bool) : (s.setLive x).engine = s.engine := rfl
@[simp] theorem setLive_engineCalls (x : Bool) : (s.setLive x).engineCalls = s.engineCalls := rfl
@[simp] theorem setLive_cfg (x : Bool) : (s.setLive x).cfg = s.cfg := rfl

@[simp] theorem setFrame_m (x : Option Frame) : (s.setFrame x).m = s.m := rfl
@[simp] theorem setFrame_live (x : Option Frame) : (s.setFrame x).live = s.live := rfl
@[simp] theorem setFrame_handle (x : Option Frame) : (s.setFrame x).handle = s.handle := rfl
@[simp] theorem setFrame_parked (x : Option Frame) : (s.setFrame x).parked = s.parked := rfl
@[simp] theorem setFrame_nextHandle (x : Option Frame) : (s.setFrame x).nextHandle = s.nextHandle := rfl
@[simp] theorem setFrame_frame (x : Option Frame) : (s.setFrame x).frame = x := rfl
@[simp] theorem setFrame_buf (x : Option Frame) : (s.setFrame x).buf = s.buf := rfl
@[simp] theorem setFrame_result (x : Option Frame) : (s.setFrame x).result = s.result := rfl
@[simp] theorem setFrame_inbox (x : Option Frame) : (s.setFrame x).inbox = s.inbox := rfl
@[simp] theorem setFrame_engine (x : Option Frame) : (s.setFrame x).engine = s.engine := rfl
@[simp] theorem setFrame_engineCalls (x : Option Frame) : (s.setFrame x).engineCalls = s.engineCalls := rfl
@[simp] theorem setFrame_cfg (x : Option Frame) : (s.setFrame x).cfg = s.cfg := rfl

@[simp] theorem setBuf_m (x : List Byte) : (s.setBuf x).m = s.m := rfl
@[simp] theorem setBuf_live (x : List Byte) : (s.setBuf x).live = s.live := rfl
@[simp] theorem setBuf_handle (x : List Byte) : (s.setBuf x).handle = s.handle := rfl
@[simp] theorem setBuf_parked (x : List Byte) : (s.setBuf x).parked = s.parked := rfl
@[simp] theorem setBuf_nextHandle (x : List Byte) : (s.setBuf x).nextHandle = s.nextHandle := rfl
@[simp] theorem setBuf_frame (x : List Byte) : (s.setBuf x).frame = s.frame := rfl
@[simp] theorem setBuf_buf (x : List Byte) : (s.setBuf x).buf = x := rfl
@[simp] theorem setBuf_result (x : List Byte) : (s.setBuf x).result = s.result := rfl
@[simp] theorem setBuf_inbox (x : List Byte) : (s.setBuf x).inbox = s.inbox := rfl
@[simp] theorem setBuf_engine (x : List Byte) : (s.setBuf x).engine = s.engine := rfl
@[simp] theorem setBuf_engineCalls (x : List Byte) : (s.setBuf x).engineCalls = s.engineCalls := rfl
@[simp] theorem setBuf_cfg (x : List Byte) : (s.setBuf x).cfg = s.cfg := rfl

@[simp] theorem setResult_m (x : Result) : (s.setResult x).m = s.m := rfl
@[simp] theorem setResult_live (x : Result) : (s.setResult x).live = s.live := rfl
@[simp] theorem setResult_handle (x : Result) : (s.setResult x).handle = s.handle := rfl
@[simp] theorem setResult_parked (x : Result) : (s.setResult x).parked = s.parked := rfl
@[simp] theorem setResult_nextHandle (x : Result) : (s.setResult x).nextHandle = s.nextHandle := rfl
@[simp] theorem setResult_frame (x : Result) : (s.setResult x).frame = s.frame := rfl
@[simp] theorem setResult_buf (x : Result) : (s.setResult x).buf = s.buf := rfl
@[simp] theorem setResult_result (x : Result) : (s.setResult x).result = x := rfl
@[simp] theorem setResult_inbox (x : Result) : (s.setResult x).inbox = s.inbox := rfl
@[simp] theorem setResult_engine (x : Result) : (s.setResult x).engine = s.engine := rfl
@[simp] theorem setResult_engineCalls (x : Result) : (s.setResult x).engineCalls = s.engineCalls := rfl
@[simp] theorem setResult_cfg (x : Result) : (s.setResult x).cfg = s.cfg := rfl

@[simp] theorem setInbox_m (x : List Call) : (s.setInbox x).m = s.m := rfl
@[simp] theorem setInbox_live (x : List Call) : (s.setInbox x).live = s.live := rfl
@[simp] theorem setInbox_handle (x : List Call) : (s.setInbox x).handle = s.handle := rfl
@[simp] theorem setInbox_parked (x : List Call) : (s.setInbox x).parked = s.parked := rfl
@[simp] theorem setInbox_nextHandle (x : List Call) : (s.setInbox x).nextHandle = s.nextHandle := rfl
@[simp] theorem setInbox_frame (x : List Call) : (s.setInbox x).frame = s.frame := rfl
@[simp] theorem setInbox_buf (x : List Call) : (s.setInbox x).buf = s.buf := rfl
@[simp] theorem setInbox_result (x : List Call) : (s.setInbox x).result = s.result := rfl
@[simp] theorem setInbox_inbox (x : List Call) : (s.setInbox x).inbox = x := rfl
@[simp] theorem setInbox_engine (x : List Call) : (s.setInbox x).engine = s.engine := rfl
@[simp] theorem setInbox_engineCalls (x : List Call) : (s.setInbox x).engineCalls = s.engineCalls := rfl
@[simp] theorem setInbox_cfg (x : List Call) : (s.setInbox x).cfg = s.cfg := rfl

@[simp] theorem setEngine_m (e : List EngineCall) (n : Nat) : (s.setEngine e n).m = s.m := rfl
@[simp] theorem setEngine_live (e : List EngineCall) (n : Nat) : (s.setEngine e n).live = s.live := rfl
@[simp] theorem setEngine_handle (e : List EngineCall) (n : Nat) : (s.setEngine e n).handle = s.handle := rfl
@[simp] theorem setEngine_parked (e : List EngineCall) (n : Nat) : (s.setEngine e n).parked = s.parked := rfl
@[simp] theorem setEngine_nextHandle (e : List EngineCall) (n : Nat) : (s.setEngine e n).nextHandle = s.nextHandle := rfl
@[simp] theorem setEngine_frame (e : List EngineCall) (n : Nat) : (s.setEngine e n).frame = s.frame := rfl
@[simp] theorem setEngine_buf (e : List EngineCall) (n : Nat) : (s.setEngine e n).buf = s.buf := rfl
@[simp] theorem setEngine_result (e : List EngineCall) (n : Nat) : (s.setEngine e n).result = s.result := rfl
@[simp] theorem setEngine_inbox (e : List EngineCall) (n : Nat) : (s.setEngine e n).inbox = s.inbox := rfl
@[simp] theorem setEngine_engine (e : List EngineCall) (n : Nat) : (s.setEngine e n).engine = e := rfl
@[simp] theorem setEngine_engineCalls (e : List EngineCall) (n : Nat) : (s.setEngine e n).engineCalls = n := rfl
@[simp] theorem setEngine_cfg (e : List EngineCall) (n : Nat) : (s.setEngine e n).cfg = s.cfg := rfl

/-- Two results written one after the other leave the second. -/
@[simp] theorem setResult_setResult (a b : Result) : (s.setResult a).setResult b = s.setResult b := rfl

end Sys2Proof.Machine
end

