-- ==== Sys2Proof/Laws/Ops.lean ====
section
/-! SUPPORT. For each shared operation, once, everything it can do. -/

namespace Sys2Proof.Machine

/-! ### Outcomes and guards. -/

@[simp] theorem andThen_next (s : State) (k : State → Host.Outcome State Fault Refusal) :
    andThen (.next s) k = k s := rfl

theorem andThen_eq_next {o : Host.Outcome State Fault Refusal} {k : State → Host.Outcome State Fault Refusal}
    {t : State} : andThen o k = .next t ↔ ∃ s, o = .next s ∧ k s = .next t := by
  cases o <;> simp [andThen]

/-- An engine transaction answers a next state exactly on a context that exists. -/
theorem onEngine_eq_next {s t u : State} : onEngine s t = .next u ↔ s.live = true ∧ t = u := by
  unfold onEngine; split <;> simp_all

theorem onEngine_live {s : State} (h : s.live = true) (t : State) : onEngine s t = .next t := by
  simp [onEngine, h]

/-- A host transaction goes on exactly between FRAME calls on a context that exists. -/
theorem onHost_eq_next {s u : State} {k : Host.Outcome State Fault Refusal} :
    onHost s k = .next u ↔ s.Ready ∧ k = .next u := by
  unfold onHost State.Ready
  cases hl : s.live <;> cases hf : s.frame <;> simp

theorem onHost_ready {s : State} (h : s.Ready) (k : Host.Outcome State Fault Refusal) : onHost s k = k := by
  obtain ⟨hl, hf⟩ := h
  simp [onHost, hl, hf]

/-- An internal step goes on exactly inside a FRAME. -/
theorem inFrame_eq_next {s u : State} {k : Frame → Host.Outcome State Fault Refusal} :
    inFrame s k = .next u ↔ s.live = true ∧ ∃ f, s.frame = some f ∧ k f = .next u := by
  unfold inFrame
  cases hl : s.live <;> cases hf : s.frame <;> simp

theorem inFrame_some {s : State} {f : Frame} (hl : s.live = true) (hf : s.frame = some f)
    (k : Frame → Host.Outcome State Fault Refusal) : inFrame s k = k f := by
  simp [inFrame, hl, hf]

/-! ### Bus transactions and engine calls. -/

/-- A bus transaction changes the record as `busEffect` says, the result, and nothing else. -/
theorem busOp_spec (op : BusOp) (s : State) :
    ∃ r, busOp op s = (s.setM (busEffect s.m op)).setResult r := by
  cases op with
  | mrd a => exact ⟨_, rfl⟩
  | mwr a v => exact ⟨_, rfl⟩
  | setdone => exact ⟨_, rfl⟩
  | iord p => cases h : isUla p <;> simp only [busOp, h] <;> exact ⟨_, rfl⟩
  | iowr p v =>
    simp only [busOp, busEffect]
    by_cases h : p % 256 = 0xFE
    · rw [if_pos ((isUla_iff p).mpr h), if_pos h, ← ulaBorder_eq, ← ulaEar_eq]
      exact ⟨_, rfl⟩
    · rw [if_neg (fun hu => h ((isUla_iff p).mp hu)), if_neg h]
      exact ⟨_, rfl⟩

/-- A call's transactions change the record by their effects in order, the result, and nothing else. -/
theorem runBus_spec (ops : List BusOp) (s : State) :
    ∃ r, (runBus ops s).1 = (s.setM (ops.foldl busEffect s.m)).setResult r := by
  induction ops generalizing s with
  | nil => exact ⟨s.result, rfl⟩
  | cons op ops ih =>
    obtain ⟨r, hr⟩ := busOp_spec op s
    obtain ⟨r', hr'⟩ := ih (busOp op s)
    refine ⟨r', ?_⟩
    simp only [runBus, hr']
    rw [hr]
    rfl

/-- A bus transaction's record and answer depend on the record it meets, and on no other field. -/
theorem busOp_congr (op : BusOp) {s u : State} (h : s.m = u.m) :
    (busOp op s).m = (busOp op u).m ∧ replyOf (busOp op s).result = replyOf (busOp op u).result := by
  cases op with
  | mrd a => exact ⟨h, congrArg (fun m : MachineState => [memRead m.mem a]) h⟩
  | mwr a v =>
    exact ⟨congrArg (fun m : MachineState => { m with mem := memWrite m.mem a (dataOf v) }) h, rfl⟩
  | setdone => exact ⟨congrArg (fun m : MachineState => { m with done := true }) h, rfl⟩
  | iord p =>
    simp only [busOp]
    split
    · exact ⟨h, congrArg (fun m : MachineState => [kbSelect m.kb (portSel p)]) h⟩
    · exact ⟨h, rfl⟩
  | iowr p v =>
    simp only [busOp]
    split
    · exact ⟨congrArg (fun m : MachineState => { m with border := ulaBorder v, ear := ulaEar v }) h, rfl⟩
    · exact ⟨h, rfl⟩

/-- The bytes the engine is answered with in a call depend on the record alone. -/
theorem runBus_replies (ops : List BusOp) {s u : State} (h : s.m = u.m) : (runBus ops s).2 = (runBus ops u).2 := by
  induction ops generalizing s u with
  | nil => rfl
  | cons op ops ih =>
    obtain ⟨hm, hr⟩ := busOp_congr op h
    simp only [runBus, ih hm, hr]

/-- The replies of the next call are those of its transactions run on the state itself. -/
theorem callBus_replies (s : State) : (callBus s).2 = (runBus (nextCall s).ops s).2 := runBus_replies _ rfl

/-- The state after an engine call's transactions. -/
theorem callBus_spec (s : State) :
    ∃ r, (callBus s).1 =
      ((takeCall s).setM ((nextCall s).ops.foldl busEffect s.m)).setResult r := by
  obtain ⟨r, hr⟩ := runBus_spec (nextCall s).ops (takeCall s)
  exact ⟨r, hr⟩

/-- The frame interrupt: everything it changes. -/
theorem raiseFrameInterrupt_spec (f : Frame) (s : State) :
    raiseFrameInterrupt f s =
      setStep ((takeCall s).setM
        { (nextCall s).ops.foldl busEffect s.m with
          cpu := .interrupt s.cfg.irqModeArg (callBus s).2 (nextCall s).used ::
            ((nextCall s).ops.foldl busEffect s.m).cpu })
        { f with stage := .exec, carry := if s.cfg.irqCyclesCharged then ((nextCall s).used : Int) else 0 } := by
  obtain ⟨r, hr⟩ := callBus_spec s
  simp only [raiseFrameInterrupt, hr]
  rfl

/-- An Execute call: everything it changes. -/
theorem executeCycles_spec (n : Int) (f : Frame) (s : State) :
    executeCycles n f s =
      setStep ((takeCall s).setM
        { (nextCall s).ops.foldl busEffect s.m with
          cpu := .execute n (callBus s).2 (nextCall s).used ::
            ((nextCall s).ops.foldl busEffect s.m).cpu })
        { f with stage := .line, carry := ((nextCall s).used : Int) - n } := by
  obtain ⟨r, hr⟩ := callBus_spec s
  simp only [executeCycles, hr]
  rfl

/-- An engine transaction leaves the CPU state, the keyboard and the counter alone (R125, R145). -/
theorem busEffect_keeps (m : MachineState) (op : BusOp) :
    (busEffect m op).cpu = m.cpu ∧ (busEffect m op).kb = m.kb ∧
      (busEffect m op).frameCounter = m.frameCounter := by
  cases op with
  | iowr p v => unfold busEffect; dsimp only; split <;> exact ⟨rfl, rfl, rfl⟩
  | _ => exact ⟨rfl, rfl, rfl⟩

theorem foldl_busEffect_keeps (ops : List BusOp) (m : MachineState) :
    (ops.foldl busEffect m).cpu = m.cpu ∧ (ops.foldl busEffect m).kb = m.kb ∧
      (ops.foldl busEffect m).frameCounter = m.frameCounter := by
  induction ops generalizing m with
  | nil => exact ⟨rfl, rfl, rfl⟩
  | cons op ops ih =>
    obtain ⟨h1, h2, h3⟩ := ih (busEffect m op)
    obtain ⟨g1, g2, g3⟩ := busEffect_keeps m op
    exact ⟨h1.trans g1, h2.trans g2, h3.trans g3⟩

/-- An engine transaction keeps memory's canonical form. -/
theorem busEffect_wf {m : MachineState} (h : m.mem.wf = true) (op : BusOp) : (busEffect m op).mem.wf = true := by
  cases op with
  | mwr a v => exact memWrite_wf h a _
  | iowr p v => simp only [busEffect]; split <;> exact h
  | mrd a => exact h
  | iord p => exact h
  | setdone => exact h

theorem foldl_busEffect_wf (ops : List BusOp) {m : MachineState} (h : m.mem.wf = true) :
    (ops.foldl busEffect m).mem.wf = true := by
  induction ops generalizing m with
  | nil => exact h
  | cons op ops ih => exact ih (busEffect_wf h op)

/-! ### The engine input. -/

/-- The next call is upcoming call 0. -/
theorem nextCall_eq (s : State) : nextCall s = upcoming s 0 := by
  unfold nextCall upcoming; cases s.engine <;> simp

/-- The calls after one has been taken. -/
theorem upcoming_takeCall (s : State) (k : Nat) : upcoming (takeCall s) k = upcoming s (k + 1) := by
  simp only [upcoming, takeCall, setEngine_engine, setEngine_engineCalls]
  cases s.engine <;> simp [Nat.add_assoc, Nat.add_comm 1 k]

/-! ### The pixel buffer. -/

theorem length_cellPixels (m : MachineState) (y0 c : Nat) : (cellPixels m y0 c).length = 8 := by
  simp [cellPixels]

theorem length_bitmapPixels (m : MachineState) (y0 : Nat) : (bitmapPixels m y0).length = 256 := by
  simp [bitmapPixels, List.length_flatMap, length_cellPixels]

/-- Every row is 352 pixels wide. -/
theorem length_lineRow (m : MachineState) (y : Nat) : (lineRow m y).length = 352 := by
  unfold lineRow
  split <;> simp only [List.length_append, List.length_replicate, length_bitmapPixels, borderLR]

/-- A row that lies in the buffer leaves its length alone. -/
theorem length_writeRow {buf row : List Byte} {y : Nat} (hr : row.length = 352)
    (hb : 352 * y + 352 ≤ buf.length) : (writeRow buf y row).length = buf.length := by
  simp [writeRow, hr]; omega

/-- Every byte of the buffer after a row has been written. -/
theorem writeRow_getElem? {buf row : List Byte} {y : Nat} (hr : row.length = 352)
    (hb : 352 * y + 352 ≤ buf.length) (i : Nat) :
    (writeRow buf y row)[i]? =
      if 352 * y ≤ i ∧ i < 352 * y + 352 then row[i - 352 * y]? else buf[i]? := by
  have hl : (buf.take (352 * y)).length = 352 * y := by simp; omega
  simp only [writeRow, frameW, List.append_assoc]
  by_cases h1 : i < 352 * y
  · rw [List.getElem?_append_left (by omega), List.getElem?_take_of_lt h1, if_neg (by omega)]
  · rw [List.getElem?_append_right (by omega), hl]
    by_cases h2 : i < 352 * y + 352
    · rw [List.getElem?_append_left (by omega), if_pos (by omega)]
    · have e : 352 * y + 352 + (i - 352 * y - row.length) = i := by omega
      rw [List.getElem?_append_right (by omega), if_neg (by omega), List.getElem?_drop, e]

/-- LINE in a frame: the row is rendered and the sequencer moves on. -/
theorem execLine_next {s : State} {f : Frame} {y : Nat} (hl : s.live = true) (hf : s.frame = some f)
    (hy : y ≤ 311) : execLine y s = .next (renderLine y f s) := by
  rw [execLine, inFrame_some hl hf, if_pos hy]

/-! ### The keyboard matrix. -/

theorem kbGet_kbSet (kb : Vector Byte 8) (i j : Nat) (v : Byte) (hj : j < 8) :
    kbGet (kbSet kb i v) j = if i = j then v else kbGet kb j := by
  simp only [kbGet, kbSet, Vector.getElem?_setIfInBounds]
  split_ifs <;> simp_all

theorem kbGet_eq (kb : Vector Byte 8) (i : Fin 8) : kbGet kb i = kb[i] := by
  simp [kbGet]

/-- Matrices that read alike are equal. -/
theorem kb_ext {a b : Vector Byte 8} (h : ∀ i < 8, kbGet a i = kbGet b i) : a = b := by
  apply Vector.ext
  intro i hi
  simpa [kbGet, hi] using h i hi

/-! ### Contexts. -/

theorem mem_park {h : Nat} {m : MachineState} {ps : List (Nat × MachineState)} {p : Nat × MachineState} :
    p ∈ park h m ps ↔ p = (h, m) ∨ p ∈ ps := by
  induction ps with
  | nil => simp [park]
  | cons q ps ih =>
    obtain ⟨k, n⟩ := q
    unfold park
    split
    · simp
    · simp only [List.mem_cons, ih]; tauto

/-- Parking under a new handle keeps the handles rising. -/
theorem park_rising {h : Nat} {m : MachineState} {ps : List (Nat × MachineState)}
    (hp : ps.Pairwise fun p q => p.1 < q.1) (hn : ∀ p ∈ ps, p.1 ≠ h) :
    (park h m ps).Pairwise fun p q => p.1 < q.1 := by
  induction ps with
  | nil => simp [park]
  | cons q ps ih =>
    obtain ⟨k, n⟩ := q
    rw [List.pairwise_cons] at hp
    unfold park
    split
    next hk =>
      refine List.pairwise_cons.mpr ⟨fun p hp' => ?_, List.pairwise_cons.mpr hp⟩
      rcases List.mem_cons.mp hp' with rfl | h'
      · exact hk
      · exact hk.trans (hp.1 p h')
    next hk =>
      have hne := hn (k, n) List.mem_cons_self
      refine List.pairwise_cons.mpr ⟨fun p hp' => ?_, ih hp.2 fun p h' => hn p (List.mem_cons_of_mem _ h')⟩
      rcases mem_park.mp hp' with rfl | h'
      · simp only at hne ⊢; omega
      · exact hp.1 p h'

/-- A context found under a handle is one of the parked ones. -/
theorem mem_of_parkedAt {h : Nat} {ps : List (Nat × MachineState)} {m : MachineState}
    (hm : parkedAt h ps = some m) : (h, m) ∈ ps := by
  induction ps with
  | nil => simp [parkedAt] at hm
  | cons q ps ih =>
    obtain ⟨k, n⟩ := q
    unfold parkedAt at hm
    split at hm
    next he =>
      obtain rfl := Option.some.inj hm
      simp [he]
    · exact List.mem_cons_of_mem _ (ih hm)

/-- A parked context is found under its handle. -/
theorem parkedAt_mem {h : Nat} {m : MachineState} {ps : List (Nat × MachineState)}
    (hr : ps.Pairwise fun p q => p.1 < q.1) (hm : (h, m) ∈ ps) : parkedAt h ps = some m := by
  induction ps with
  | nil => cases hm
  | cons q ps ih =>
    obtain ⟨k, n⟩ := q
    rw [List.pairwise_cons] at hr
    unfold parkedAt
    rcases List.mem_cons.mp hm with h1 | h1
    · cases h1; simp
    · have hlt := hr.1 _ h1
      simp only at hlt
      rw [if_neg (by omega), ih hr.2 h1]

/-- A handle under which nothing is found is no parked context's. -/
theorem ne_of_parkedAt_none {h : Nat} {ps : List (Nat × MachineState)} (hn : parkedAt h ps = none) :
    ∀ p ∈ ps, p.1 ≠ h := by
  induction ps with
  | nil => simp
  | cons q ps ih =>
    obtain ⟨k, n⟩ := q
    unfold parkedAt at hn
    split at hn
    · cases hn
    · intro p hp
      rcases List.mem_cons.mp hp with rfl | h'
      · assumption
      · exact ih hn p h'

/-- Where no parked context has the handle, nothing is found under it. -/
theorem parkedAt_eq_none {h : Nat} {ps : List (Nat × MachineState)} (hn : ∀ p ∈ ps, p.1 ≠ h) :
    parkedAt h ps = none := by
  cases hp : parkedAt h ps with
  | none => rfl
  | some m => exact absurd rfl (hn _ (mem_of_parkedAt hp))

/-- The contexts that exist: the parked ones, and the selected one if it does. -/
theorem mem_parkAll (s : State) (p : Nat × MachineState) :
    p ∈ parkAll s ↔ p ∈ s.parked ∨ (s.live = true ∧ p = (s.handle, s.m)) := by
  unfold parkAll
  split
  next h => rw [mem_park]; simp [h]; tauto
  next h => simp [h]

end Sys2Proof.Machine
end

