-- ==== Sys2Proof/Laws/Frame.lean ====
section
/-!
SUPPORT. A FRAME, said once: what one scanline does, what k of them do, and what the whole frame does.
-/

namespace Sys2Proof.Machine

/-- The record after the next engine call, its Execute event on top of the CPU state. -/
def afterExecute (n : Int) (s : State) : MachineState :=
  { (upcoming s 0).ops.foldl busEffect s.m with
    cpu := .execute n (callBus s).2 (upcoming s 0).used :: s.m.cpu }

/-- The state after EXEC and LINE of the scanline f.y. -/
def oneScanline (f : Frame) (s : State) : State :=
  { s with
    m := afterExecute (request f) s
    frame := some { stage := .exec, y := f.y + 1, carry := ((upcoming s 0).used : Int) - request f }
    buf := writeRow s.buf f.y (lineRow (afterExecute (request f) s) f.y)
    result := .none
    engine := s.engine.tail
    engineCalls := s.engineCalls + 1 }

/-- One scanline of `scanlines`. -/
theorem scanlines_succ {s : State} {f : Frame} (k : Nat) (hl : s.live = true) (hf : s.frame = some f)
    (hy : f.y ≤ 311) : scanlines (k + 1) s = scanlines k (oneScanline f s) := by
  have hcpu := (foldl_busEffect_keeps (nextCall s).ops s.m).1
  rw [scanlines, show locals s = f by simp [locals, hf], execExec, inFrame_some hl hf, andThen_next,
    executeCycles_spec, hcpu]
  rw [execLine_next (f := { f with stage := .line, carry := ((nextCall s).used : Int) - request f })
    (by exact hl) rfl (by exact hy), andThen_next]
  congr 1
  simp only [nextCall_eq]
  rfl

/-- The carry before the j-th of the coming scanlines, c being the carry before the first (R256). -/
def carriesFrom (s : State) (c : Int) : Nat → Int
  | 0 => c
  | j + 1 => ((upcoming s j).used : Int) - (224 - carriesFrom s c j)

/-- The carries seen from the state after one call. -/
theorem carriesFrom_succ {s t : State} (hu : ∀ k, upcoming t k = upcoming s (k + 1)) (c : Int) (j : Nat) :
    carriesFrom t (((upcoming s 0).used : Int) - (224 - c)) j = carriesFrom s c (j + 1) := by
  induction j with
  | zero => rfl
  | succ j ih => rw [carriesFrom, ih, hu]; rfl

/-- What k scanlines do to a state inside a FRAME. -/
structure Scanned (s t : State) (f : Frame) (k : Nat) (es : List CpuEvent) : Prop where
  /-- Nothing else changes. -/
  only : t = { s with m := t.m, frame := t.frame, buf := t.buf, result := t.result,
                      engine := s.engine.drop k, engineCalls := s.engineCalls + k }
  stage : t.frame = some { stage := .exec, y := f.y + k, carry := carriesFrom s f.carry k }
  cycles : (es.map executeUsed).sum = 224 * k - f.carry + carriesFrom s f.carry k
  record : t.m = { machineAfterCalls s k with cpu := es ++ s.m.cpu }
  executes : es.length = k ∧ ∀ e ∈ es, isExecute e = true
  protocol : ∀ j < k, ∃ r,
    es[k - 1 - j]? = some (.execute (224 - carriesFrom s f.carry j) r (upcoming s j).used)
  length : t.buf.length = s.buf.length
  rows : ∀ j < k, ∀ x < 352,
    t.buf[352 * (f.y + j) + x]? = (lineRow (machineAfterCalls s (j + 1)) (f.y + j))[x]?
  others : ∀ i, i < 352 * f.y ∨ 352 * (f.y + k) ≤ i → t.buf[i]? = s.buf[i]?

/-- The record a line is rendered from does not show the CPU state. -/
theorem lineRow_cpu (m : MachineState) (c : List CpuEvent) (y : Nat) :
    lineRow { m with cpu := c } y = lineRow m y := rfl

theorem foldl_busEffect_cpu (ops : List BusOp) (m : MachineState) (c : List CpuEvent) :
    ops.foldl busEffect { m with cpu := c } = { ops.foldl busEffect m with cpu := c } := by
  induction ops generalizing m with
  | nil => rfl
  | cons op ops ih =>
    have : busEffect { m with cpu := c } op = { busEffect m op with cpu := c } := by
      cases op with
      | iowr p v => unfold busEffect; dsimp only; split <;> rfl
      | _ => rfl
    rw [List.foldl_cons, this, ih, List.foldl_cons]

/-- The records of later calls, seen from the state after one call. -/
theorem machineAfterCalls_succ {s t : State}
    (hm : t.m = { (upcoming s 0).ops.foldl busEffect s.m with cpu := t.m.cpu })
    (hu : ∀ k, upcoming t k = upcoming s (k + 1)) (k : Nat) :
    machineAfterCalls t k = { machineAfterCalls s (k + 1) with cpu := t.m.cpu } := by
  induction k with
  | zero => rw [machineAfterCalls, hm]; rfl
  | succ k ih => rw [machineAfterCalls, ih, foldl_busEffect_cpu, hu]; rfl

/-- k scanlines inside a FRAME always run, and this is what they do. -/
theorem scanlines_spec (k : Nat) {s : State} {f : Frame} (hl : s.live = true) (hf : s.frame = some f)
    (hs : f.stage = .exec) (hy : f.y + k ≤ 312) (hb : frameBytes ≤ s.buf.length) :
    ∃ t es, scanlines k s = .next t ∧ Scanned s t f k es := by
  induction k generalizing s f with
  | zero =>
    refine ⟨s, [], rfl, ⟨by simp, ?_, by simp [carriesFrom], by rfl, by simp, by omega, rfl, by omega,
      fun _ _ => rfl⟩⟩
    rw [hf, ← hs]; rfl
  | succ k ih =>
    have hu : ∀ j, upcoming (oneScanline f s) j = upcoming s (j + 1) := upcoming_takeCall s
    have hm := machineAfterCalls_succ (t := oneScanline f s) rfl hu
    have hlen : (oneScanline f s).buf.length = s.buf.length :=
      length_writeRow (length_lineRow _ _) (by simp at hb; omega)
    obtain ⟨t, es, ht, S⟩ := ih (s := oneScanline f s)
      (f := { stage := .exec, y := f.y + 1, carry := ((upcoming s 0).used : Int) - request f })
      hl rfl rfl (by simp only; omega) (by rw [hlen]; exact hb)
    have hcs := carriesFrom_succ hu f.carry
    have hcpu : (oneScanline f s).m.cpu =
        .execute (request f) (callBus s).2 (upcoming s 0).used :: s.m.cpu := rfl
    refine ⟨t, es ++ [.execute (request f) (callBus s).2 (upcoming s 0).used], ?_, ⟨?_, ?_, ?_, ?_,
      ⟨by simp [S.executes.1], fun e he => ?_⟩, fun j hj => ?_, S.length.trans hlen, fun j hj x hx => ?_, fun i hi => ?_⟩⟩
    · rw [scanlines_succ k hl hf (by omega), ht]
    · rw [S.only]
      simp only [oneScanline, List.drop_tail, Nat.add_assoc, Nat.add_comm 1 k]
    · rw [S.stage, ← hcs]; simp only [request, Nat.add_assoc, Nat.add_comm 1 k]
    · rw [List.map_append, List.sum_append, S.cycles, ← hcs]
      simp only [List.map_cons, List.map_nil, executeUsed, List.sum_cons, List.sum_nil, request, cyclesPerLine]
      push_cast; ring
    · rw [S.record, hm, hcpu]
      simp
    · rcases List.mem_append.mp he with h | h
      · exact S.executes.2 e h
      · rw [List.mem_singleton.mp h]; rfl
    · cases j with
      | zero =>
        exact ⟨(callBus s).2, by
          rw [List.getElem?_append_right (by rw [S.executes.1]; omega), S.executes.1]; simp; rfl⟩
      | succ j =>
        obtain ⟨r, hr⟩ := S.protocol j (by omega)
        refine ⟨r, ?_⟩
        rw [List.getElem?_append_left (by rw [S.executes.1]; omega),
          show k + 1 - 1 - (j + 1) = k - 1 - j by omega, hr, hu, ← hcs]
        rfl
    · cases j with
      | zero =>
        rw [S.others _ (Or.inl (by simp only; omega))]
        have := writeRow_getElem? (buf := s.buf) (row := lineRow (afterExecute (request f) s) f.y)
          (y := f.y) (length_lineRow _ _) (by simp at hb; omega) (352 * f.y + x)
        rw [show (oneScanline f s).buf = writeRow s.buf f.y (lineRow (afterExecute (request f) s) f.y) from rfl,
          Nat.add_zero, this, if_pos (by omega)]
        simp only [Nat.add_sub_cancel_left]
        rfl
      | succ j =>
        have := S.rows j (by omega) x hx
        rw [hm, lineRow_cpu] at this
        simp only at this
        rw [show f.y + (j + 1) = f.y + 1 + j by omega, this]
    · rw [S.others i (by simp only; omega)]
      have := writeRow_getElem? (buf := s.buf) (row := lineRow (afterExecute (request f) s) f.y)
        (y := f.y) (length_lineRow _ _) (by simp at hb; omega) i
      rw [show (oneScanline f s).buf = writeRow s.buf f.y (lineRow (afterExecute (request f) s) f.y) from rfl,
        this, if_neg (by omega)]

/-- The state after the interrupt of a FRAME in the buffer b. -/
def afterInterrupt (b : List Byte) (s : State) : State :=
  { s with
    m := { (upcoming s 0).ops.foldl busEffect s.m with
           cpu := .interrupt s.cfg.irqModeArg (callBus (openFrame b s)).2 (upcoming s 0).used :: s.m.cpu }
    frame := some { stage := .exec, y := 0, carry := carryBefore s 0 }
    buf := b
    result := .none
    engine := s.engine.tail
    engineCalls := s.engineCalls + 1 }

theorem execVsync_open (b : List Byte) {s : State} (h : s.Ready) :
    execVsync (openFrame b s) = .next (afterInterrupt b s) := by
  have hcpu := (foldl_busEffect_keeps (nextCall s).ops s.m).1
  rw [execVsync, inFrame_some (f := firstFrame) (by exact h.1) rfl, raiseFrameInterrupt_spec,
    show nextCall (openFrame b s) = nextCall s from rfl, show (openFrame b s).m = s.m from rfl, hcpu]
  simp only [nextCall_eq]
  rfl

theorem upcoming_afterInterrupt (b : List Byte) (s : State) (k : Nat) :
    upcoming (afterInterrupt b s) k = upcoming s (k + 1) := upcoming_takeCall s k

/-- The carries of the frame. -/
theorem carriesFrom_afterInterrupt (b : List Byte) (s : State) (j : Nat) :
    carriesFrom (afterInterrupt b s) (carryBefore s 0) j = carryBefore s j := by
  induction j with
  | zero => rfl
  | succ j ih => rw [carriesFrom, ih, upcoming_afterInterrupt]; rfl

/-- A FRAME that passes its checks always runs to its end, and this is what it does. -/
theorem execFrame_spec {s : State} {b : List Byte} (h : s.Ready) (hb : frameBytes ≤ b.length)
    (hd : s.m.done = false) :
    ∃ t es, execFrame b s = .next (closeFrame t) ∧
      Scanned (afterInterrupt b s) t { stage := .exec, y := 0, carry := carryBefore s 0 } 312 es := by
  obtain ⟨t, es, ht, S⟩ := scanlines_spec 312 (s := afterInterrupt b s)
    (f := { stage := .exec, y := 0, carry := carryBefore s 0 }) h.1 rfl rfl (by simp) hb
  refine ⟨t, es, ?_, S⟩
  rw [execFrame, onHost_ready h, if_neg (by omega), if_neg (by simp [hd]), runFrame, execVsync_open b h,
    andThen_next, ht, andThen_next]

/-- The records of the frame's calls, seen from the state after the interrupt. -/
theorem machineAfterCalls_afterInterrupt (b : List Byte) (s : State) (k : Nat) :
    machineAfterCalls (afterInterrupt b s) k =
      { machineAfterCalls s (k + 1) with cpu := (afterInterrupt b s).m.cpu } :=
  machineAfterCalls_succ rfl (upcoming_afterInterrupt b s) k

/-- One step of a run of the machine. -/
theorem run_succ_next (k : Nat) {s t : State} (h : step s = .next t) :
    Host.Core.run Sys2Proof.core (k + 1) s = Host.Core.run Sys2Proof.core k t := by
  have h' : Sys2Proof.core.step s = .next t := h
  simp only [Host.Core.run, h']

end Sys2Proof.Machine
end

