-- ==== Sys2Proof/Laws/Snapshot.lean ====
section
/-! SUPPORT. The laws of LOAD's writes: every run of bytes keeps memory's canonical form. -/

namespace Sys2Proof.Machine

/-- The writes of an image keep memory's canonical form. -/
theorem writePieces_wf {m : Memory} (h : m.wf = true) (ps : List (Nat × List Byte)) :
    (writePieces m ps).wf = true := by
  unfold writePieces
  induction ps generalizing m with
  | nil => exact h
  | cons p ps ih => exact ih (memWriteBytes_wf h p.1 p.2)

/-- The runs are written in order, so the last one is written last. -/
theorem writePieces_append (m : Memory) (ps : List (Nat × List Byte)) (p : Nat × List Byte) :
    writePieces m (ps ++ [p]) = memWriteBytes (writePieces m ps) p.1 p.2 := by
  simp [writePieces]

/-- A read after one more run: the run's byte where it covers the address, else what was there before. -/
theorem memRead_writePieces_append {m : Memory} (h : m.wf = true) (ps : List (Nat × List Byte))
    (p : Nat × List Byte) (hf : p.1 + p.2.length ≤ 65536) {x : Nat} (hx : x < 65536) :
    memRead (writePieces m (ps ++ [p])) x =
      if p.1 ≤ x ∧ x < p.1 + p.2.length then p.2[x - p.1]?.getD 0#8 else memRead (writePieces m ps) x := by
  rw [writePieces_append, memRead_memWriteBytes (writePieces_wf h ps) _ _ hf hx]

/-- Every page that is loaded starts where a block of at most 16384 bytes stays inside the address space. -/
theorem pageAddr_le {policy : PagePolicy} {page : Byte} {a : Nat} (h : pageAddr policy page = some a) :
    a + 16384 ≤ 65536 := by
  unfold pageAddr at h
  split at h
  · cases h
  · cases h; decide
  · cases h; decide
  · cases h; decide
  · split at h <;> cases h; decide

/-- A decompressed stream that is accepted fits its bound. -/
theorem rleUpTo_length {classic : Bool} {cap : Nat} {src out : List Byte}
    (h : rleUpTo classic cap src = some out) : rle classic src = some out ∧ out.length ≤ cap := by
  simpa [rleUpTo, Option.filter_eq_some_iff] using h

/-- LOAD leaves memory in canonical form, whatever it held before. -/
theorem applyImage_wf (img : Image) (s : State) : (applyImage img (reinit s)).m.mem.wf = true :=
  writePieces_wf (m := []) rfl img.pieces

end Sys2Proof.Machine
end

