-- ==== Sys2Proof/Laws/Exec.lean ====
section
/-!
SUPPORT. What an instruction can do, once: the nine shapes of a next state of exec, from which the statements about every
instruction follow by cases.
-/

namespace Sys2Proof.Machine

/-- The records of a frame's calls keep memory's canonical form. -/
theorem machineAfterCalls_wf {s : State} (h : s.m.mem.wf = true) (n : Nat) :
    (machineAfterCalls s n).mem.wf = true := by
  induction n with
  | zero => exact h
  | succ n ih => exact foldl_busEffect_wf _ ih

/-- The engine's transactions leave the CPU state, the keyboard and the counter of the record alone. -/
theorem machineAfterCalls_keeps (s : State) (n : Nat) :
    (machineAfterCalls s n).cpu = s.m.cpu ∧ (machineAfterCalls s n).kb = s.m.kb ∧
      (machineAfterCalls s n).frameCounter = s.m.frameCounter := by
  induction n with
  | zero => exact ⟨rfl, rfl, rfl⟩
  | succ n ih =>
    obtain ⟨a, b, c⟩ := foldl_busEffect_keeps (upcoming s n).ops (machineAfterCalls s n)
    exact ⟨a.trans ih.1, b.trans ih.2.1, c.trans ih.2.2⟩

/-- The shapes of a next state of exec, with the conditions each comes under. -/
inductive ExecShape (s : State) : Instr → State → Prop
  /-- Bus effects on the record and a result: reads, writes and ignored transactions. -/
  | bus (i : Instr) (r : Result) (ops : List BusOp) (hl : s.live = true)
      (hd : i = .setdone ∨ BusOp.setdone ∉ ops) :
      ExecShape s i ((s.setM (ops.foldl busEffect s.m)).setResult r)
  /-- A half-row changed. -/
  | keys (i : Instr) (kb : Vector Byte 8) (r : Result) (h : s.Ready) : ExecShape s i ((s.setKb kb).setResult r)
  | load (b : List Byte) (img : Image) (h : s.Ready) : ExecShape s (.load b) (applyImage img (reinit s))
  /-- A FRAME that does not run. -/
  | noFrame (b : List Byte) (r : Result) (h : s.Ready) : ExecShape s (.frame b) ((s.setBuf b).setResult r)
  /-- A FRAME that runs. -/
  | frame (b : List Byte) (u : State) (es : List CpuEvent) (h : s.Ready) (hb : frameBytes ≤ b.length)
      (hd : s.m.done = false)
      (S : Scanned (afterInterrupt b s) u { stage := .exec, y := 0, carry := carryBefore s 0 } 312 es) :
      ExecShape s (.frame b) (closeFrame u)
  | init (h : s.frame = none) : ExecShape s .init (allocate s)
  | free (h : s.Ready) : ExecShape s .free ((s.setLive false).setResult .none)
  /-- VSYNC or EXEC: one engine call. -/
  | call (i : Instr) (f g : Frame) (e : CpuEvent) (hl : s.live = true) (hf : s.frame = some f) (hy : g.y = f.y)
      (hi : i = .vsync ∨ ∃ n, i = .exec n) :
      ExecShape s i (setStep ((takeCall s).setM
        { (nextCall s).ops.foldl busEffect s.m with cpu := e :: s.m.cpu }) g)
  | line (y : Nat) (f : Frame) (hl : s.live = true) (hf : s.frame = some f) (hy : y ≤ 311) :
      ExecShape s (.line y) (renderLine y f s)

/-- Every next state of exec has one of the shapes. -/
theorem exec_shape {s t : State} {i : Instr} (h : exec i s = .next t) : ExecShape s i t := by
  cases i with
  | mrd a =>
    obtain ⟨hl, rfl⟩ := onEngine_eq_next.mp (show execMrd a s = _ from h)
    exact ExecShape.bus _ _ [] hl (by simp)
  | mwr a v =>
    obtain ⟨hl, rfl⟩ := onEngine_eq_next.mp (show execMwr a v s = _ from h)
    exact ExecShape.bus _ _ [.mwr a v] hl (by simp)
  | iordUla a =>
    obtain ⟨hl, rfl⟩ := onEngine_eq_next.mp (show execIordUla a s = _ from h)
    exact ExecShape.bus _ _ [] hl (by simp)
  | iordNone a =>
    obtain ⟨hl, rfl⟩ := onEngine_eq_next.mp (show execIordNone a s = _ from h)
    exact ExecShape.bus _ _ [] hl (by simp)
  | iowrUla a v =>
    obtain ⟨hl, rfl⟩ := onEngine_eq_next.mp (show execIowrUla a v s = _ from h)
    have := ExecShape.bus (s := s) (.iowrUla a v) .none [.iowr 254 v] hl (by simp)
    simpa [busEffect, writeUla, ulaBorder_eq, ulaEar_eq, State.setM, State.setBorder, State.setEar] using this
  | iowrNone a v =>
    obtain ⟨hl, rfl⟩ := onEngine_eq_next.mp (show execIowrNone a v s = _ from h)
    exact ExecShape.bus _ _ [] hl (by simp)
  | setdone =>
    obtain ⟨hl, rfl⟩ := onEngine_eq_next.mp (show execSetdone s = _ from h)
    exact ExecShape.bus _ _ [.setdone] hl (by simp)
  | peek a =>
    obtain ⟨hr, h⟩ := onHost_eq_next.mp (show execPeek a s = _ from h); cases h
    exact ExecShape.bus _ _ [] hr.1 (by simp)
  | poke a v =>
    obtain ⟨hr, h⟩ := onHost_eq_next.mp (show execPoke a v s = _ from h); cases h
    exact ExecShape.bus _ _ [.mwr a v] hr.1 (by simp)
  | keydnRow a =>
    obtain ⟨hr, h⟩ := onHost_eq_next.mp (show execKeydnRow a s = _ from h); cases h
    exact ExecShape.keys _ _ _ hr
  | keydnIgn a =>
    obtain ⟨hr, h⟩ := onHost_eq_next.mp (show execKeydnIgn a s = _ from h); cases h
    exact ExecShape.bus _ _ [] hr.1 (by simp)
  | keyupRow a =>
    obtain ⟨hr, h⟩ := onHost_eq_next.mp (show execKeyupRow a s = _ from h); cases h
    exact ExecShape.keys _ _ _ hr
  | keyupIgn a =>
    obtain ⟨hr, h⟩ := onHost_eq_next.mp (show execKeyupIgn a s = _ from h); cases h
    exact ExecShape.bus _ _ [] hr.1 (by simp)
  | load b =>
    obtain ⟨hr, h⟩ := onHost_eq_next.mp (show execLoad b s = _ from h)
    split at h <;> cases h
    exact ExecShape.load _ _ hr
  | frame b =>
    obtain ⟨hr, h'⟩ := onHost_eq_next.mp (show execFrame b s = _ from h)
    split at h'
    · cases h'; exact ExecShape.noFrame _ _ hr
    next hb =>
      split at h'
      · cases h'; exact ExecShape.noFrame _ _ hr
      next hd =>
        have hd : s.m.done = false := by simpa using hd
        obtain ⟨u, es, hu, S⟩ := execFrame_spec hr (b := b) (by omega) hd
        rw [show execFrame b s = exec (.frame b) s from rfl, h] at hu
        cases hu
        exact ExecShape.frame _ _ _ hr (by simp at hb; omega) hd S
  | init =>
    replace h : execInit s = _ := h
    rw [execInit] at h
    split at h <;> cases h
    exact ExecShape.init (by assumption)
  | free =>
    obtain ⟨hr, h⟩ := onHost_eq_next.mp (show execFree s = _ from h); cases h
    exact ExecShape.free hr
  | vsync =>
    obtain ⟨hl, f, hf, h⟩ := inFrame_eq_next.mp (show execVsync s = _ from h)
    cases h
    rw [raiseFrameInterrupt_spec, (foldl_busEffect_keeps _ _).1]
    exact ExecShape.call _ f _ _ hl hf rfl (Or.inl rfl)
  | exec n =>
    obtain ⟨hl, f, hf, h⟩ := inFrame_eq_next.mp (show execExec n s = _ from h)
    cases h
    rw [executeCycles_spec, (foldl_busEffect_keeps _ _).1]
    exact ExecShape.call _ f _ _ hl hf rfl (Or.inr ⟨n, rfl⟩)
  | line y =>
    obtain ⟨hl, f, hf, h⟩ := inFrame_eq_next.mp (show execLine y s = _ from h)
    split at h <;> cases h
    exact ExecShape.line _ _ hl hf (by assumption)

/-- The record after a FRAME: what its 313 calls made of it, the counter one up. -/
theorem closeFrame_m {s u : State} {b : List Byte} {es : List CpuEvent}
    (S : Scanned (afterInterrupt b s) u { stage := .exec, y := 0, carry := carryBefore s 0 } 312 es) :
    (closeFrame u).m =
      { machineAfterCalls s 313 with cpu := u.m.cpu, frameCounter := s.m.frameCounter + 1 } := by
  have hu := S.record
  rw [machineAfterCalls_afterInterrupt] at hu
  show { u.m with frameCounter := u.m.frameCounter + 1 } = _
  have hc := (machineAfterCalls_keeps s 313).2.2
  generalize u.m = v at hu
  subst hu
  simp [hc]

end Sys2Proof.Machine
end

