-- ==== Sys2Proof/Laws/PerInstr.lean ====
section
/-!
SUPPORT. What is said of every instruction as syntax, one lemma per constructor: a well-formed port or key transaction
belongs to its row of the opcode table exactly as the number in its operand says, and a scanline index is in range.
-/

namespace Sys2Proof.Laws.RowMatch

open Sys2Proof Sys2Proof.Machine

/-- Well-formedness as arithmetic on the operand (30_encoding.md R83, R86, R92; 43_renderer.md R180). -/
def Statement (i : Instr) : Prop :=
  i.wellFormed = true ↔
    match i with
    | .iordUla p | .iowrUla p _ => p % 256 = 0xFE
    | .iordNone p | .iowrNone p _ => p % 256 ≠ 0xFE
    | .keydnRow k | .keyupRow k => k.toNat / 256 < 8
    | .keydnIgn k | .keyupIgn k => 8 ≤ k.toNat / 256
    | .line y => y ≤ 311
    | .mrd _ | .mwr _ _ | .setdone | .peek _ | .poke _ _ => True
    | .load _ | .frame _ | .init | .free | .vsync | .exec _ => True

theorem mrd (a : Nat) : Statement (.mrd a) := by simp [Statement, Instr.wellFormed]

theorem mwr (a v : Nat) : Statement (.mwr a v) := by simp [Statement, Instr.wellFormed]

theorem iordUla (p : Nat) : Statement (.iordUla p) := isUlaPort_iff p

theorem iordNone (p : Nat) : Statement (.iordNone p) := by
  show (!isUlaPort p) = true ↔ p % 256 ≠ 0xFE
  rw [Ne, ← isUlaPort_iff]; simp

theorem iowrUla (p v : Nat) : Statement (.iowrUla p v) := isUlaPort_iff p

theorem iowrNone (p v : Nat) : Statement (.iowrNone p v) := iordNone p

theorem setdone : Statement .setdone := by simp [Statement, Instr.wellFormed]

theorem peek (a : Nat) : Statement (.peek a) := by simp [Statement, Instr.wellFormed]

theorem poke (a v : Nat) : Statement (.poke a v) := by simp [Statement, Instr.wellFormed]

theorem keydnRow (k : Word) : Statement (.keydnRow k) := isRowCode_iff k

theorem keydnIgn (k : Word) : Statement (.keydnIgn k) := by
  show (!isRowCode k) = true ↔ 8 ≤ k.toNat / 256
  rw [← Nat.not_lt, ← isRowCode_iff]; simp

theorem keyupRow (k : Word) : Statement (.keyupRow k) := isRowCode_iff k

theorem keyupIgn (k : Word) : Statement (.keyupIgn k) := keydnIgn k

theorem load (s : List Byte) : Statement (.load s) := by simp [Statement, Instr.wellFormed]

theorem frame (b : List Byte) : Statement (.frame b) := by simp [Statement, Instr.wellFormed]

theorem init : Statement .init := by simp [Statement, Instr.wellFormed]

theorem free : Statement .free := by simp [Statement, Instr.wellFormed]

theorem vsync : Statement .vsync := by simp [Statement, Instr.wellFormed]

theorem exec (n : Int) : Statement (.exec n) := by simp [Statement, Instr.wellFormed]

theorem line (y : Nat) : Statement (.line y) := by simp [Statement, Instr.wellFormed]

end Sys2Proof.Laws.RowMatch
end

