-- ==== Sys2Proof/Tests/Slice0.lean ====
section
/-!
SUPPORT. The model's own tests. Part 1: WellFormed refuses an ill-formed term of every check. Part 2: a packet written out from
the spec's operand fields decodes to every constructor. Part 3: single steps, their expected values taken from the examples of the
rules and from 95_test_vectors.md (cited at each). Part 4: for every statement of Obligations.lean with hypotheses, concrete
states and operands that meet them, at the boundaries of its clauses.
-/

open Sys2Proof Sys2Proof.Machine

namespace Sys2Proof.Tests

/-! ### Helpers. -/

/-- Something read from the next state of an outcome; none for a fault or a refusal. -/
def look {α : Type} (o : Host.Outcome State Fault Refusal) (get : State → α) : Option α :=
  match o with
  | .next t => some (get t)
  | _ => none

/-- The reset state with another record. -/
def withM (m : MachineState) : State := { State.reset with m := m }

/-- V3's keyboard: key 0 of half-row 0 and key 4 of half-row 3 held. -/
def v3Keys : State :=
  withM { MachineState.reset with kb := (kbSet (kbSet MachineState.reset.kb 0 0xFE) 3 0xEF) }

/-- A state with a FRAME in progress, whole buffer included. -/
def midFrame (f : Frame) : State :=
  { State.reset with frame := some f, buf := List.replicate 109824 0xEE }

/-- A state after FREE. -/
def freed : State := { State.reset with live := false }

/-- One byte in memory. -/
def oneByte (a : Nat) (v : Byte) : State := withM { MachineState.reset with mem := [(a, v)] }

/-! ### Part 1. WellFormed refuses. -/

theorem test_wellFormed_iordUla_refuses : (Instr.iordUla 0xFEFF).wellFormed = false := by decide
theorem test_wellFormed_iordNone_refuses : (Instr.iordNone 0x12FE).wellFormed = false := by decide
theorem test_wellFormed_iowrUla_refuses : (Instr.iowrUla 0x00FF 7).wellFormed = false := by decide
theorem test_wellFormed_iowrNone_refuses : (Instr.iowrNone 0x00FE 7).wellFormed = false := by decide
theorem test_wellFormed_keydnRow_refuses : (Instr.keydnRow 0x0800).wellFormed = false := by decide
theorem test_wellFormed_keydnIgn_refuses : (Instr.keydnIgn 0x07FF).wellFormed = false := by decide
theorem test_wellFormed_keyupRow_refuses : (Instr.keyupRow 0xFFFF).wellFormed = false := by decide
theorem test_wellFormed_keyupIgn_refuses : (Instr.keyupIgn 0x0000).wellFormed = false := by decide
theorem test_wellFormed_line_refuses : (Instr.line 312).wellFormed = false := by decide

/-! ### Part 2. Decoding. The operand words are the spec's (30_encoding.md R82 to R86); the channel byte is the model's. -/

theorem test_decode_mrd : decode [0x00, 0x40, 1] = .ok (.mrd 0x4000) := by rfl
theorem test_decode_mwr : decode [0xFF, 0xFF, 2, 0x01, 0xAB, 0x03] = .ok (.mwr 0x1FFFF 0x1AB) := by rfl
theorem test_decode_iordUla : decode [0xFE, 0x45, 3, 0x23] = .ok (.iordUla 0x2345FE) := by rfl
theorem test_decode_iordNone : decode [0x7E, 0xFE, 3] = .ok (.iordNone 0xFE7E) := by rfl
theorem test_decode_iowrUla : decode [0xFE, 0xAB, 4, 0, 0x0F] = .ok (.iowrUla 0xABFE 0x0F) := by rfl
theorem test_decode_iowrNone : decode [0xFF, 0xFE, 4, 0, 0x07] = .ok (.iowrNone 0xFEFF 0x07) := by rfl
theorem test_decode_setdone : decode [0, 0, 5] = .ok .setdone := by rfl
theorem test_decode_peek : decode [0x00, 0x40, 6, 0x01] = .ok (.peek 0x14000) := by rfl
theorem test_decode_poke : decode [0x00, 0x80, 7, 0x00, 0x34] = .ok (.poke 0x8000 0x34) := by rfl
theorem test_decode_keydnRow : decode [0xFF, 0x07, 8] = .ok (.keydnRow 0x07FF) := by rfl
theorem test_decode_keydnIgn : decode [0x00, 0x08, 8] = .ok (.keydnIgn 0x0800) := by rfl
theorem test_decode_keyupRow : decode [0x00, 0x07, 9] = .ok (.keyupRow 0x0700) := by rfl
theorem test_decode_keyupIgn : decode [0xFF, 0xFF, 9] = .ok (.keyupIgn 0xFFFF) := by rfl
theorem test_decode_load : decode [0, 0, 10, 0xED, 0xED] = .ok (.load [0xED, 0xED]) := by rfl
theorem test_decode_frame : decode [0, 0, 11, 0xEE, 0xEE, 0xEE] = .ok (.frame [0xEE, 0xEE, 0xEE]) := by rfl
theorem test_decode_init : decode [0, 0, 12] = .ok .init := by rfl
theorem test_decode_free : decode [0, 0, 13] = .ok .free := by rfl
theorem test_decode_vsync : decode [0, 0, 14] = .ok .vsync := by rfl
theorem test_decode_exec : decode [0, 0, 15, 0x05] = .ok (.exec (-3)) := by rfl
theorem test_decode_line : decode [0x37, 0x01, 16] = .ok (.line 311) := by rfl

/-- The wire form's own rejections, each by name. -/
theorem test_decode_rejects :
    decode [0, 0, 17] = .error (.unknownChannel 17) ∧ decode [0, 0, 5, 0] = .error .trailingBytes ∧
      decode [1, 0, 5] = .error .unusedWord ∧ decode [0x38, 0x01, 16] = .error .scanlineRange := by
  exact ⟨rfl, rfl, rfl, rfl⟩

/-- Two of the table's words, and one that meets no mask of its own. -/
theorem test_decodeTableWord :
    decodeTableWord 16 0x00FE = some (.iordUla 0x00FE) ∧
      decodeTableWord 16 0x0000 = some (.keydnRow 0x0000) ∧
      decodeTableWord 16 0x4000 = some (.mrd 0x4000) := ⟨rfl, rfl, rfl⟩

/-- The very next step runs the presented word: on the reset state, IORD 0x00FE answers 0xFF (R280, example). -/
theorem test_withFetchWord :
    look (step (State.reset.withFetchWord 16 0x00FE)) (·.result) = some (.byte 0xFF) := by decide

/-! ### Part 3. Single steps. -/

/-- R120, example. -/
theorem test_mrd : look (exec (.mrd 0x4000) (oneByte 0x4000 0x81)) (·.result) = some (.byte 0x81) := by decide

/-- V6: address and data are reduced. -/
theorem test_mwr : look (exec (.mwr 0x1FFFF 0x1AB) State.reset) (·.m.mem) = some [(0xFFFF, 0xAB)] := by decide

/-- Writing the reset value leaves nothing listed (the canonical form). -/
theorem test_mwr_zero : look (exec (.mwr 0x4000 0x100) (oneByte 0x4000 0x81)) (·.m.mem) = some [] := by decide

/-- R122, first corner case. -/
theorem test_peek : look (exec (.peek 0x14000) (oneByte 0x4000 0x81)) (·.result) = some (.byte 0x81) := by decide

/-- R123, example. -/
theorem test_poke :
    look (exec (.poke 0x8000 0x34) (oneByte 0x8000 0x12)) (fun t => (t.result, t.m.mem)) =
      some (.byte 0x12, [(0x8000, 0x34)]) := by decide

/-- V3: rows 0 and 3. -/
theorem test_iordUla : look (exec (.iordUla 0xF6FE) v3Keys) (·.result) = some (.byte 0xEE) := by decide

/-- V3: wider than 16 bits, reduced. -/
theorem test_iordUla_wide : look (exec (.iordUla 0x12345FE) v3Keys) (·.result) = some (.byte 0xEF) := by decide

/-- V3: not the ULA port. -/
theorem test_iordNone : look (exec (.iordNone 0x00FD) v3Keys) (·.result) = some (.byte 0xFF) := by decide

/-- R143, example. -/
theorem test_iowrUla :
    look (exec (.iowrUla 0x12FE 0x1D) State.reset) (fun t => (t.m.border, t.m.ear)) = some (5, true) := by decide

/-- V3: bit 3 ignored, ear cleared. -/
theorem test_iowrUla_ear :
    look (exec (.iowrUla 0xABFE 0x0F) (withM { MachineState.reset with ear := true }))
      (fun t => (t.m.border, t.m.ear)) = some (7, false) := by decide

/-- R144, example. -/
theorem test_iowrNone :
    look (exec (.iowrNone 0x00FF 0x07) (withM { MachineState.reset with border := 2 })) (·.m.border) =
      some 2 := by decide

/-- R283. -/
theorem test_setdone : look (exec .setdone State.reset) (·.m.done) = some true := by decide

/-- V5. -/
theorem test_keydnRow :
    look (exec (.keydnRow 0x0205) State.reset) (·.m.kb.toList) =
      some [0xFF, 0xFF, 0xFA, 0xFF, 0xFF, 0xFF, 0xFF, 0xFF] := by decide

/-- V5: the row is never reduced modulo 8. -/
theorem test_keydnIgn : look (exec (.keydnIgn 0x0801) State.reset) (·.m.kb) = some MachineState.reset.kb := by decide

/-- V5, corner: the pair leaves the held key released. -/
theorem test_keyupRow :
    look (exec (.keyupRow 0x0006) (withM { MachineState.reset with kb := kbSet MachineState.reset.kb 0 0xF9 }))
      (fun t => kbGet t.m.kb 0) = some 0xFF := by decide

/-- V5. -/
theorem test_keyupIgn : look (exec (.keyupIgn 0xFFFF) v3Keys) (fun t => kbGet t.m.kb 3) = some 0xEF := by decide

/-- P5's image. -/
def p5 : List Byte :=
  [0, 0, 0, 0, 0, 0, 0x00, 0x80, 0, 0, 0, 0, 0x26] ++ List.replicate 17 0 ++
    [0xED, 0xED, 0x05, 0x2A, 0x11, 0x00, 0xED, 0xED, 0x00, 0x99]

/-- P5: memory, keyboard, border and the PC handed over; the POKE at 0x9000 does not survive. -/
theorem test_load_classic :
    look (exec (.load p5) (withM { MachineState.reset with
        mem := [(0x9000, 0x55)], kb := kbSet MachineState.reset.kb 1 0xFE }))
      (fun t => (t.m.mem, kbGet t.m.kb 1, t.m.border, t.m.cpu)) =
      some ([(0x4000, 0x2A), (0x4001, 0x2A), (0x4002, 0x2A), (0x4003, 0x2A), (0x4004, 0x2A), (0x4005, 0x11)],
        0xFF, 3, [.setRegisters (p5.take 30) 0x8000 false [], .reset]) := by rfl

/-- Blocks 2 to 5 of P6 behind a short extension header (E = 2), without block 1. -/
def p6 : List Byte :=
  [0, 0, 0, 0, 0, 0, 0, 0, 0, 0, 0, 0, 0x0A] ++ List.replicate 17 0 ++ [0x02, 0x00, 0x34, 0x12] ++
    [0x03, 0x00, 0x04, 0x01, 0x02, 0x03] ++ [0x01, 0x00, 0x63, 0x77] ++ [0x01, 0x00, 0x00, 0x66] ++
    [0x05, 0x00, 0x05, 0x00, 0xED, 0xED, 0x00, 0x42]

/-- P6: page 4, an unknown page at 0x0000, page 0 ignored, no TERM in page 5; border 5. -/
theorem test_load_extended :
    look (exec (.load p6) State.reset) (fun t => (t.m.mem, t.m.border)) =
      some ([(0x0000, 0x77), (0x8000, 0x01), (0x8001, 0x02), (0x8002, 0x03)], 5) := by rfl

/-- W4: a short buffer gives the shortfall. -/
theorem test_frame_shortfall :
    look (exec (.frame [0xAA, 0xAA]) State.reset) (fun t => (t.result, t.m.frameCounter)) =
      some (.count 109822, 0) := by rfl

/-- V8: done = 1 and a whole buffer give 0 and change nothing. -/
theorem test_frame_done :
    exec (.frame (List.replicate 109824 0xAA)) (withM { MachineState.reset with done := true }) =
      .next { withM { MachineState.reset with done := true } with
              buf := List.replicate 109824 0xAA, result := .count 0 } := by
  show execFrame _ _ = _
  rw [execFrame, onHost_ready ⟨rfl, rfl⟩, if_neg (by rw [List.length_replicate]; decide)]
  rfl

/-- R280 and R282: the new context is fresh and the old one is kept. -/
theorem test_init :
    look (exec .init (oneByte 0x4000 0x81)) (fun t => (t.result, t.m.mem, t.parked.map (·.2.mem))) =
      some (.handle 1, [], [[(0x4000, 0x81)]]) := by decide

/-- R281, example: FREE, then PEEK 0 is refused. -/
theorem test_free : exec (.peek 0) freed = .refused .freedHandle := by rfl

/-- R254: the interrupt's cycles are charged to scanline 0 when IRQ_CYCLES_CHARGED; a MWR of the call lands. -/
theorem test_vsync :
    look (exec .vsync { midFrame firstFrame with
        engine := [{ ops := [.mwr 0x5800 0x38], used := 13 }],
        cfg := { Config.standard with irqCyclesCharged := true } })
      (fun t => (t.frame, t.m.mem)) =
      some (some { stage := .exec, y := 0, carry := 13 }, [(0x5800, 0x38)]) := by rfl

/-- R256, example: req 221 and used 219 leave carry -2; the engine is answered with the bytes of its reads. -/
theorem test_exec :
    look (exec (.exec 221) { midFrame { stage := .exec, y := 1, carry := 3 } with
        engine := [{ ops := [.iord 0x00FE, .setdone, .iowr 0x00FE 0x06], used := 219 }] })
      (fun t => (t.frame, t.m.cpu, t.m.border, t.m.done)) =
      some (some { stage := .line, y := 1, carry := -2 }, [.execute 221 [0xFF] 219, .reset], 6, true) := by rfl

/-- P2, row 48: x = 44..59. -/
theorem test_line_row :
    ((lineRow { MachineState.reset with mem := [(0x4000, 0x81), (0x5800, 0x47)] } 48).drop 44).take 16 =
      [0, 0, 0, 0, 0xF, 8, 8, 8, 8, 8, 8, 0xF, 0, 0, 0, 0] := by decide

/-- V1: two addresses; V2: three pixels. -/
theorem test_line_parts :
    bmpAddr 100 5 = 0x4C85 ∧ attrAddr 100 5 = 0x5985 ∧ bmpAddr 191 31 = 0x57FF ∧
      pixel true 0x47 false = 15 ∧ pixel true 0x8A true = 1 ∧ pixel false 0xC7 true = 15 := by decide

/-- V7: RUN, TERM in both modes, a value byte that is not rescanned, a cut-off RUN. -/
theorem test_rle :
    rle true [0xED, 0xED, 0x05, 0x2A] = some [0x2A, 0x2A, 0x2A, 0x2A, 0x2A] ∧
      rle true [0x00, 0xED, 0xED, 0x00, 0x11] = some [] ∧
      rle false [0x00, 0xED, 0xED, 0x00, 0x11] = some [0x00] ∧
      rle true [0x11, 0xED, 0xED, 0x03, 0xED, 0x22] = some [0x11, 0xED, 0xED, 0xED, 0x22] ∧
      rle true [0x01, 0xED, 0xED, 0x05] = none := by decide

/-! ### Part 4. Witnesses of the statements' hypotheses. -/

theorem reset_ready : State.reset.Ready := ⟨rfl, rfl⟩

/-- A whole buffer. -/
def wholeBuffer : List Byte := List.replicate 109824 0xEE

theorem wholeBuffer_length : 109824 ≤ wholeBuffer.length := by
  rw [wholeBuffer, List.length_replicate]

/-- LINE goes on inside a FRAME. -/
theorem midFrame_line (f : Frame) {y : Nat} (hy : y ≤ 311) : ∃ t, exec (.line y) (midFrame f) = .next t :=
  ⟨_, execLine_next (f := f) rfl rfl hy⟩

theorem midFrame_length (f : Frame) : 109824 ≤ (midFrame f).buf.length := by
  rw [midFrame, List.length_replicate]

theorem test_witness_DecodeOfEncode :
    (Instr.mwr 0x1FFFF 0x1AB).wellFormed = true ∧ (Instr.iordUla 0xFFFE).wellFormed = true ∧
      (Instr.keydnRow 0x07FF).wellFormed = true ∧ (Instr.line 311).wellFormed = true := by decide

theorem test_witness_DecodedInstructionIsWellFormed : decode [0xFE, 0x00, 4] = .ok (.iowrUla 0x00FE 0) := by rfl

theorem test_witness_PortDecodeByLowByte : 0xFFFE % 256 = 0xFE ∧ 0xFEFF % 256 ≠ 0xFE := by decide

theorem test_witness_KeyCodeSelectsRow :
    (0x07FF : Word).toNat / 256 < 8 ∧ 8 ≤ (0x0800 : Word).toNat / 256 := by decide

/-- All three clauses: a call that decodes, a packet that is no call, an empty inbox. -/
theorem test_witness_StepTakesTheNextCall :
    (∃ s : State, s.frame = none ∧ s.inbox = [{ to? := none, bytes := [0, 0x40, 1] }] ∧
      decode [0, 0x40, 1] = .ok (.mrd 0x4000)) ∧
    (∃ s : State, s.frame = none ∧ s.inbox = [{ to? := none, bytes := [0, 0, 17] }] ∧
      decode [0, 0, 17] = .error (.unknownChannel 17)) ∧
    (State.reset.frame = none ∧ State.reset.inbox = []) :=
  ⟨⟨{ State.reset with inbox := [{ to? := none, bytes := [0, 0x40, 1] }] }, rfl, rfl, rfl⟩,
    ⟨{ State.reset with inbox := [{ to? := none, bytes := [0, 0, 17] }] }, rfl, rfl, rfl⟩, rfl, rfl⟩

/-- The four stages, at the last scanline and after it. -/
theorem test_witness_StepContinuesFrame :
    (midFrame firstFrame).frame = some { stage := .vsync, y := 0, carry := 0 } ∧
    (midFrame { stage := .exec, y := 311, carry := 3 }).frame = some { stage := .exec, y := 311, carry := 3 } ∧
    (midFrame { stage := .line, y := 311, carry := 3 }).frame = some { stage := .line, y := 311, carry := 3 } ∧
    (midFrame { stage := .exec, y := 312, carry := 3 }).frame = some { stage := .exec, y := 312, carry := 3 } :=
  ⟨rfl, rfl, rfl, rfl⟩

/-- MRD, the port transactions and SETDONE: a context that exists. -/
theorem test_witness_engine_transactions : v3Keys.live = true := rfl

/-- IowrUlaLatchesBorderAndEar's second clause: a port write inside a FRAME and the line after it. -/
theorem test_witness_IowrUlaLatchesBorderAndEar :
    (midFrame firstFrame).live = true ∧ 109824 ≤ (midFrame firstFrame).buf.length ∧
      ∃ u, andThen (exec (.iowrUla 0x00FE 0x06) (midFrame firstFrame)) (exec (.line 47)) = .next u :=
  ⟨rfl, midFrame_length _, ⟨_, execLine_next (s := writeUla 0x06 (midFrame firstFrame)) (y := 47)
    (f := firstFrame) rfl rfl (by decide)⟩⟩

/-- MWR, MemoryWritesCommute: memory in canonical form, two cells and one. -/
theorem test_witness_MwrStoresLowByte :
    (oneByte 0xFFFF 0xAB).live = true ∧ (oneByte 0xFFFF 0xAB).m.mem.wf = true ∧
      0x1FFFF % 65536 ≠ 0x4000 % 65536 ∧ 0x1FFFF % 65536 = 0xFFFF % 65536 := by decide

/-- PEEK, POKE, WriteThenReadReturnsValue and the POKE clause of MemoryWritesCommute. -/
theorem test_witness_PokeAnswersPreviousByte :
    (oneByte 0x8000 0x12).Ready ∧ (oneByte 0x8000 0x12).m.mem.wf = true := ⟨⟨rfl, rfl⟩, rfl⟩

/-- Each clause: a read by the engine, a read by the host, a rendered line, a write. -/
theorem test_witness_MemoryWritesChangeExactlyOneCell :
    State.reset.m.mem.wf = true ∧ (∃ t, exec (.mrd 0xFFFF) State.reset = .next t) ∧
      (∃ t, exec (.peek 0x10000) State.reset = .next t) ∧
      (∃ t, exec (.line 48) (midFrame firstFrame) = .next t) ∧
      (∃ t, exec (.mwr 0x1FFFF 0x1AB) State.reset = .next t) ∧
      (∃ t, exec (.poke 0 0xFF) State.reset = .next t) :=
  ⟨rfl, ⟨_, rfl⟩, ⟨_, rfl⟩, midFrame_line _ (by decide), ⟨_, rfl⟩, ⟨_, rfl⟩⟩

/-- KEYDN, KEYUP and PressReleaseLaw at the last valid half-row, InvalidHalfRowIgnored at the first invalid one. -/
theorem test_witness_keys :
    State.reset.Ready ∧ (0x07FF : Word).toNat / 256 = (7 : Fin 8).val ∧ 8 ≤ (0x0800 : Word).toNat / 256 :=
  ⟨reset_ready, rfl, by decide⟩

/-- KeyTransactionsCommute's third clause: different half-rows, or one half-row and disjoint masks. -/
theorem test_witness_KeyTransactionsCommute :
    (0x0205 : Word).toNat / 256 ≠ (0x0305 : Word).toNat / 256 ∧
      BitVec.ofNat 8 (0x0205 : Word).toNat &&& BitVec.ofNat 8 (0x020A : Word).toNat = 0 := by decide

/-- LINE inside a FRAME, at the first and the last scanline. -/
theorem test_witness_LineWritesItsRowOnly :
    (midFrame firstFrame).live = true ∧ (midFrame firstFrame).frame = some firstFrame ∧ 0 ≤ 311 ∧ 311 ≤ 311 ∧
      109824 ≤ (midFrame firstFrame).buf.length :=
  ⟨rfl, rfl, by decide, by decide, midFrame_length _⟩

/-- Every disjunct at its boundary: y = 47, y = 240, and x = 47 and x = 304 of y = 48. -/
theorem test_witness_BorderPixelsTakeBorder :
    109824 ≤ (midFrame firstFrame).buf.length ∧ ∀ p ∈ [(47, 100), (240, 100), (48, 47), (48, 304)],
      (∃ t, exec (.line p.1) (midFrame firstFrame) = .next t) ∧ p.2 < 352 ∧
        (p.1 < 48 ∨ 240 ≤ p.1 ∨ p.2 < 48 ∨ 304 ≤ p.2) := by
  refine ⟨midFrame_length _, fun p hp => ?_⟩
  have hy : p.1 ≤ 311 ∧ p.2 < 352 ∧ (p.1 < 48 ∨ 240 ≤ p.1 ∨ p.2 < 48 ∨ 304 ≤ p.2) := by
    revert p; decide
  exact ⟨midFrame_line _ hy.1, hy.2⟩

/-- The first pixel of the bitmap and the last; the same lines meet LineOutputDependsOnlyOn with both states equal. -/
theorem test_witness_BitmapPixelsFollowPixelRule :
    109824 ≤ (midFrame firstFrame).buf.length ∧ (∃ t, exec (.line (0 + 48)) (midFrame firstFrame) = .next t) ∧
      (∃ t, exec (.line (191 + 48)) (midFrame firstFrame) = .next t) ∧ 191 < 192 ∧ 31 < 32 ∧ 7 < 8 :=
  ⟨midFrame_length _, midFrame_line _ (by decide), midFrame_line _ (by decide),
    by decide⟩

/-- Two states that differ in memory a line does not read, in the bitmap band. -/
theorem test_witness_LineOutputDependsOnlyOn :
    ∃ s1 s2 : State, s1 ≠ s2 ∧ (∃ t, exec (.line 48) s1 = .next t) ∧ (∃ t, exec (.line 48) s2 = .next t) ∧
      109824 ≤ s1.buf.length ∧ 109824 ≤ s2.buf.length ∧ s1.m.border = s2.m.border ∧
      s1.m.frameCounter.testBit 4 = s2.m.frameCounter.testBit 4 ∧
      ∀ c < 32, memRead s1.m.mem (bmpAddr (48 - 48) c).toNat = memRead s2.m.mem (bmpAddr (48 - 48) c).toNat ∧
        memRead s1.m.mem (attrAddr (48 - 48) c).toNat = memRead s2.m.mem (attrAddr (48 - 48) c).toNat := by
  refine ⟨midFrame firstFrame, { midFrame firstFrame with m := { MachineState.reset with mem := [(0x8000, 1)] } },
    fun h => ?_, midFrame_line _ (by decide), ⟨_, execLine_next (f := firstFrame) rfl rfl (by decide)⟩,
    midFrame_length firstFrame, midFrame_length firstFrame, rfl, rfl, by decide⟩
  have : ([] : Memory) = [(0x8000, 1)] := congrArg (fun s : State => s.m.mem) h
  cases this

/-- VideoAddressLayout at the ends of its ranges. -/
theorem test_witness_VideoAddressLayout : (191 < 192 ∧ 31 < 32) ∧ (0x4000 ≤ 0x57FF ∧ 0x57FF < 0x5800) := by decide

/-- The standard layout holds after reset; P5 is well formed, the empty image is not, nor is P6 with a trailing byte. -/
theorem test_witness_LoadRunsExactlyOnWellFormedImages :
    State.reset.Ready ∧ State.reset.cfg.layout = .standard ∧ (parseImage State.reset.cfg p5).isSome = true ∧
      (parseImage State.reset.cfg p6).isSome = true ∧ parseImage State.reset.cfg [] = none ∧
      parseImage State.reset.cfg (p6 ++ [0x01]) = none :=
  ⟨reset_ready, rfl, rfl, rfl, rfl, rfl⟩

/-- A classic raw image: a header with PC = 0x8000 and byte 12 = 0xFF, then 49152 bytes (V9.3). -/
theorem test_witness_ClassicRawImageLoads :
    ∃ b : List Byte, b.length = 30 + 49152 ∧ ¬(byteAt b 6 = 0 ∧ byteAt b 7 = 0) ∧
      (flagByte b).getLsbD 5 = false := by
  refine ⟨[0, 0, 0, 0, 0, 0, 0x00, 0x80, 0, 0, 0, 0, 0xFF] ++ (List.replicate 17 0 ++ List.replicate 49152 7),
    by rw [List.length_append, List.length_append, List.length_replicate, List.length_replicate]; rfl, ?_, ?_⟩
  · rintro ⟨-, h⟩; exact absurd h (by decide)
  · rfl

/-- P5. -/
theorem test_witness_ClassicCompressedImageLoads :
    30 ≤ p5.length ∧ ¬(byteAt p5 6 = 0 ∧ byteAt p5 7 = 0) ∧ (flagByte p5).getLsbD 5 = true ∧
      rle true (p5.drop 30) = some [0x2A, 0x2A, 0x2A, 0x2A, 0x2A, 0x11] := by decide

/-- One compressed block behind the shortest extension header; each of the three pages, and pages 0, 3 and 9. -/
theorem test_witness_PagesLoadAtMappedAddresses :
    (List.replicate 30 (0 : Byte)).length = 30 ∧ byteAt (List.replicate 30 0) 6 = 0 ∧
      byteAt (List.replicate 30 0) 7 = 0 ∧ [0x34, (0x12 : Byte)].length = (2 : Byte).toNat + 256 * (0 : Byte).toNat ∧
      2 ≤ [0x34, (0x12 : Byte)].length ∧
      blockData ((0 : Byte) ++ (4 : Byte)) [0xED, 0xED, 0x10, 0x55] = some (List.replicate 16 0x55, []) ∧
      (∀ p ∈ [((4 : Byte), 0x8000), (5, 0xC000), (8, 0x4000)],
        p ∈ [((4 : Byte), 0x8000), (5, 0xC000), (8, 0x4000)]) ∧
      (∀ p ∈ [(0 : Byte), 3, 9], p ≠ 4 ∧ p ≠ 5 ∧ p ≠ 8) := by decide

/-- A raw block of 16384 bytes meets the block's hypothesis too. -/
theorem test_witness_raw_block :
    blockData ((0xFF : Byte) ++ (0xFF : Byte)) (List.replicate 16384 7) = some (List.replicate 16384 7, []) := by
  have h : (List.replicate 16384 (7 : Byte)).length = 16384 := List.length_replicate
  rw [blockData, if_pos (by rfl), if_pos (le_of_eq h.symm), List.take_of_length_le (le_of_eq h),
    List.drop_of_length_le (le_of_eq h)]

/-- A compressed block and a raw block. -/
theorem test_witness_BlockWalkTakesBlocksInOrder :
    ((4 : Byte).toNat + 256 * (0 : Byte).toNat ≠ 0xFFFF ∧
      [0xED, 0xED, 0x10, (0x55 : Byte)].length = (4 : Byte).toNat + 256 * (0 : Byte).toNat ∧
      rle false [0xED, 0xED, 0x10, 0x55] = some (List.replicate 16 0x55) ∧
      (List.replicate 16 (0x55 : Byte)).length ≤ 16384) ∧
    (List.replicate 16384 (7 : Byte)).length = 16384 :=
  ⟨by decide, List.length_replicate⟩

/-- The walk's failures: a header of one and of two bytes, data one byte short (compressed and raw), a cut-off RUN, and
65 RUNs of 255 bytes, which is more than 16384. -/
theorem test_witness_BlockWalk_failures :
    ([0x05] : List Byte).length < 3 ∧ ([0x05, 0x00] : List Byte).length < 3 ∧
      [0x01, 0x02, (0x03 : Byte)].length < (4 : Byte).toNat + 256 * (0 : Byte).toNat ∧
      (4 : Byte).toNat + 256 * (0 : Byte).toNat ≠ 0xFFFF ∧
      (List.replicate 16383 (7 : Byte)).length < 16384 ∧ rle false [0x01, 0xED, 0xED, 0x05] = none ∧
      16384 < 65 * (0xFF : Byte).toNat ∧ 65 * 4 < 0xFFFF :=
  ⟨by decide, by decide, by decide, by decide, by rw [List.length_replicate]; decide, by rfl, by decide, by decide⟩

/-- Two blocks of page 8, the later over the earlier: the walk gives both, in file order, and both cover 0x4000. -/
theorem test_witness_blocks_in_file_order :
    pageBlocks .standard 10 [0x02, 0x00, 0x08, 0x11, 0x22, 0x01, 0x00, 0x08, 0x33, 0x01] = none ∧
    pageBlocks .standard 9 [0x02, 0x00, 0x08, 0x11, 0x22, 0x01, 0x00, 0x08, 0x33] =
      some [{ page := 8, data := [0x11, 0x22] }, { page := 8, data := [0x33] }] ∧
    pageAddr .loadAt0 8 = some 0x4000 ∧
    ¬PageBlock.covers .loadAt0 0x4001 { page := 8, data := [0x33] } ∧
    ¬PageBlock.covers .loadAt0 0x4002 { page := 8, data := [0x11, 0x22] } := by
  refine ⟨by rfl, by rfl, by rfl, ?_, ?_⟩ <;>
  · rintro ⟨d, hd, -, h⟩
    cases (show some 0x4000 = some d from hd)
    exact absurd h (by decide)

/-- RleFormsDecode: bytes for the clauses that exclude some. -/
theorem test_witness_RleFormsDecode :
    (0xEC : Byte) ≠ 0xED ∧ (0xEC : Byte) ≠ 0x00 ∧ ([0xED, 0xED, 0x01] : List Byte).take 3 ≠ [0xED, 0xED, 0x00] ∧
      ([] : List Byte).take 3 ≠ [0xED, 0xED, 0x00] := by decide

/-- Two records that differ, one image. -/
theorem test_witness_LoadReplacesWholeRecord :
    State.reset.Ready ∧ v3Keys.Ready ∧ State.reset.cfg = v3Keys.cfg ∧ ∃ t, exec (.load p5) State.reset = .next t :=
  ⟨reset_ready, ⟨rfl, rfl⟩, rfl, ⟨_, rfl⟩⟩

/-- A buffer one byte short, and a whole one with done = 1. -/
theorem test_witness_FrameThatDoesNotRun :
    State.reset.Ready ∧ (List.replicate 109823 (0xEE : Byte)).length < 109824 ∧
      (withM { MachineState.reset with done := true }).Ready ∧ 109824 ≤ wholeBuffer.length ∧
      (withM { MachineState.reset with done := true }).m.done = true :=
  ⟨reset_ready, by rw [List.length_replicate]; decide, ⟨rfl, rfl⟩, wholeBuffer_length, rfl⟩

/-- VSYNC and EXEC: inside a FRAME. HostTransactionsWaitForFrame: a host transaction there. -/
theorem test_witness_inside_frame :
    (midFrame firstFrame).live = true ∧ (midFrame firstFrame).frame = some firstFrame ∧
      isHostInstr (.peek 0) = true ∧ isHostInstr .init = true := ⟨rfl, rfl, rfl, rfl⟩

/-- Every statement about a FRAME that runs: the reset state, a whole buffer, and the FRAME does run. -/
theorem test_witness_frame_runs :
    State.reset.Ready ∧ State.reset.m.done = false ∧ 109824 ≤ wholeBuffer.length ∧
      ∃ t, exec (.frame wholeBuffer) State.reset = .next t := by
  obtain ⟨t, es, ht, -⟩ := execFrame_spec reset_ready wholeBuffer_length rfl
  exact ⟨reset_ready, rfl, wholeBuffer_length, ⟨_, ht⟩⟩

/-- InterruptOnlyFromFrame: the FRAME that does not run, and a transaction of each other kind. -/
theorem test_witness_InterruptOnlyFromFrame :
    (∃ t, exec (.frame []) State.reset = .next t) ∧ ([] : List Byte).length < 109824 ∧
      isInternalInstr .setdone = false ∧ (∃ t, exec .setdone State.reset = .next t) ∧
      (∃ t, exec .init State.reset = .next t) ∧ (∃ t, exec (.load p5) State.reset = .next t) ∧
      (∃ t, exec (.exec 224) (midFrame firstFrame) = .next t) ∧
      ∃ t, exec (.line 311) (midFrame firstFrame) = .next t :=
  ⟨⟨_, rfl⟩, by decide, rfl, ⟨_, rfl⟩, ⟨_, rfl⟩, ⟨_, rfl⟩, ⟨_, rfl⟩, midFrame_line _ (by decide)⟩

/-- INIT: on a context that exists and on a freed one. -/
theorem test_witness_InitCreatesFreshContext :
    State.reset.frame = none ∧ State.reset.live = true ∧ freed.frame = none ∧ freed.live = false :=
  ⟨rfl, rfl, rfl, rfl⟩

/-- A freed context, and a transaction that is not INIT. -/
theorem test_witness_FreedContextRefusesEverything :
    State.reset.Ready ∧ freed.live = false ∧ (Instr.free : Instr) ≠ .init := ⟨reset_ready, rfl, by decide⟩

/-- A world of two contexts. -/
def twoContexts : State :=
  { State.reset with handle := 1, nextHandle := 2, parked := [(0, v3Keys.m)] }

/-- INIT's and ContextsShareNothing's invariant clause is met by twoContexts_inv below, FREE's by the same state. -/
theorem test_witness_ContextsShareNothing :
    (Instr.mwr 0 1) ≠ .init ∧ (∃ t, exec (.mwr 0 1) twoContexts = .next t) ∧
      ∃ t, exec .init twoContexts = .next t := ⟨by decide, ⟨_, rfl⟩, ⟨_, rfl⟩⟩

theorem twoContexts_inv : twoContexts.Inv where
  selected := ⟨rfl, rfl⟩
  parked := by intro p hp; rw [List.mem_singleton.mp hp]; exact ⟨⟨rfl, rfl⟩, by decide⟩
  rising := by simp [twoContexts]
  issued := fun _ => by decide
  handle := by intro p hp; rw [List.mem_singleton.mp hp]; decide
  frame := by intro f hf; cases hf

/-- A parked context; a handle under which none exists, with a call addressed to it. -/
theorem test_witness_AddressingSelectsContext :
    twoContexts.Inv ∧ (0, v3Keys.m) ∈ twoContexts.parked ∧
      ∃ s : State, s.frame = none ∧ s.inbox = [{ to? := some 7, bytes := [0x00, 0x40, 6] }] ∧ 7 ≠ s.handle ∧
        (∀ p ∈ s.parked, p.1 ≠ 7) ∧ decode [0x00, 0x40, 6] = .ok (.peek 0x4000) := by
  refine ⟨twoContexts_inv, List.mem_singleton.mpr rfl,
    { twoContexts with inbox := [{ to? := some 7, bytes := [0x00, 0x40, 6] }] }, rfl, rfl, by decide, ?_, rfl⟩
  intro p hp
  rw [List.mem_singleton.mp hp]
  decide

/-- FREE on a world that meets the invariant, and a transaction that is not INIT. -/
theorem test_witness_FreedContext_addressed_again :
    twoContexts.Inv ∧ (∃ t, exec .free twoContexts = .next t) ∧ (Instr.peek 0) ≠ .init :=
  ⟨twoContexts_inv, ⟨_, rfl⟩, by decide⟩

/-- An internal step between FRAMEs. -/
theorem test_witness_InternalStepsOnlyInsideFrame :
    State.reset.Ready ∧ isInternalInstr .vsync = true ∧ isInternalInstr (.exec 224) = true ∧
      isInternalInstr (.line 0) = true := ⟨reset_ready, rfl, rfl, rfl⟩

/-- A state that meets the invariant and takes a step: a call addressed to the other context. -/
theorem test_witness_InvariantKeptByStep :
    ({ twoContexts with inbox := [{ to? := some 0, bytes := [0x00, 0x40, 7, 0, 0x01] }] } : State).Inv ∧
      ∃ t, step { twoContexts with inbox := [{ to? := some 0, bytes := [0x00, 0x40, 7, 0, 0x01] }] } = .next t :=
  ⟨⟨twoContexts_inv.selected, twoContexts_inv.parked, twoContexts_inv.rising, twoContexts_inv.issued,
    twoContexts_inv.handle, twoContexts_inv.frame⟩, ⟨_, rfl⟩⟩

/-- The invariant inside a FRAME, at its last scanline, with a step that goes on. -/
theorem test_witness_InvariantKeptByStep_inside_frame :
    (midFrame { stage := .line, y := 311, carry := 0 }).Inv ∧
      ∃ t, step (midFrame { stage := .line, y := 311, carry := 0 }) = .next t := by
  refine ⟨⟨⟨rfl, rfl⟩, (fun p hp => by cases hp), List.Pairwise.nil, fun _ => by decide, (fun p hp => by cases hp),
    fun f hf => ?_⟩, midFrame_line { stage := .line, y := 311, carry := 0 } (y := 311) (by decide)⟩
  cases hf
  exact ⟨rfl, by decide, midFrame_length { stage := .line, y := 311, carry := 0 }⟩

/-- Memory in canonical form and a transaction that goes on. -/
theorem test_witness_RecordInvariantsAfterEveryTransaction :
    (oneByte 0xFFFF 0xAB).m.mem.wf = true ∧ ∃ t, exec (.keydnRow 0x07FF) (oneByte 0xFFFF 0xAB) = .next t :=
  ⟨rfl, ⟨_, rfl⟩⟩

/-- Each clause: done stays over a POKE; SETDONE by itself and within an Execute call sets it. -/
theorem test_witness_DoneChangesOnlyBySignalOrReset :
    (∃ t, exec (.poke 0 1) (withM { MachineState.reset with done := true }) = .next t) ∧
      (∃ t, exec .setdone State.reset = .next t ∧ t.m.done = true) ∧
      ∃ t, exec (.exec 224) { midFrame firstFrame with engine := [{ ops := [.setdone], used := 224 }] } = .next t ∧
        t.m.done = true := ⟨⟨_, rfl⟩, ⟨_, rfl, rfl⟩, ⟨_, rfl, rfl⟩⟩

end Sys2Proof.Tests
end

section
/-! SUPPORT. Proofs of the statements about the record (10_state.md): the flash phase, and R35's record invariants. -/

namespace Sys2Proof.Machine

/-! ### The flash phase (R27). -/

theorem flashPhase_iff (m : MachineState) : flashPhase m = true ↔ m.frameCounter / 16 % 2 = 1 := by
  simp [flashPhase, Nat.testBit_eq_decide_div_mod_eq]

/-- Adding 2 ^ 4 flips bit 4. -/
theorem flashPhase_add_sixteen (m : MachineState) :
    flashPhase { m with frameCounter := m.frameCounter + 16 } = !flashPhase m := by
  show (m.frameCounter + 2 ^ 4).testBit 4 = !m.frameCounter.testBit 4
  rw [Nat.add_comm, Nat.testBit_two_pow_add_eq]

/-- Settles O29: bit 4 is the parity of the counter over 16, and 16 more frames flip it. -/
theorem flashPhaseIsCounterBit4 : Obligations.FlashPhaseIsCounterBit4 :=
  fun m => ⟨flashPhase_iff m, flashPhase_add_sixteen m⟩

/-! ### The record invariants (R35). -/

/-- Every shape of a next state keeps memory's canonical form; INIT and LOAD establish it afresh. -/
theorem ExecShape.mem_wf {s t : State} {i : Instr} (hS : ExecShape s i t) (h : s.m.mem.wf = true) :
    t.m.mem.wf = true := by
  cases hS with
  | bus _ r ops => exact foldl_busEffect_wf ops h
  | keys => exact h
  | load b img => exact applyImage_wf img s
  | noFrame => exact h
  | frame b u es _ _ _ S =>
    rw [closeFrame_m S]
    exact machineAfterCalls_wf h 313
  | init => rfl
  | free => exact h
  | call => exact foldl_busEffect_wf _ h
  | line => exact h

/-- No shape but those of INIT and LOAD lowers the counter: the engine's transactions keep it, a FRAME that runs raises
it by one. -/
theorem ExecShape.frameCounter_le {s t : State} {i : Instr} (hS : ExecShape s i t) (hinit : i ≠ .init)
    (hload : ∀ b, i ≠ .load b) : s.m.frameCounter ≤ t.m.frameCounter := by
  cases hS with
  | bus _ r ops => exact (foldl_busEffect_keeps ops s.m).2.2.ge
  | keys => exact le_rfl
  | load b => exact absurd rfl (hload b)
  | noFrame => exact le_rfl
  | frame b u es _ _ _ S =>
    rw [closeFrame_m S]
    exact Nat.le_succ _
  | init => exact absurd rfl hinit
  | free => exact le_rfl
  | call => exact (foldl_busEffect_keeps (nextCall s).ops s.m).2.2.ge
  | line => exact le_rfl

/-- Memory is addressed modulo 65536, so it holds 65536 cells. -/
theorem memRead_add_period (m : Memory) (a : Nat) : memRead m (a + 65536) = memRead m a := by
  rw [← memRead_mod, Nat.add_mod_right, memRead_mod]

/-- Settles O59: the canonical form and the counter by the shapes of a next state; the widths of the cells, the border,
the half-rows and ear are those of the record's types. -/
theorem recordInvariantsAfterEveryTransaction : Obligations.RecordInvariantsAfterEveryTransaction := by
  intro s t i hwf hexec
  have hS : ExecShape s i t := exec_shape hexec
  refine ⟨⟨hS.mem_wf hwf, fun a => ⟨memRead_add_period _ a, (memRead t.m.mem a).isLt⟩⟩, ?border,
    ⟨rfl, fun j => ?halfRow⟩, ?ear, hS.frameCounter_le⟩
  case border => exact Nat.le_of_lt_succ t.m.border.isLt
  case halfRow => exact Nat.le_of_lt_succ (t.m.kb[j]).isLt
  case ear => exact Bool.eq_false_or_eq_true t.m.ear

end Sys2Proof.Machine
end

section
/-! SUPPORT. Proofs of the statements about memory (20_memory.md): R58's side effects, and R67's wait for the frame. -/

namespace Sys2Proof.Machine

/-! ### Side effects of memory accesses on the record (R58). -/

@[simp] theorem readByte_m (a : Nat) (s : State) : (readByte a s).m = s.m := rfl

@[simp] theorem writeByte_m (a v : Nat) (s : State) :
    (writeByte a v s).m = { s.m with mem := memWrite s.m.mem a (BitVec.ofNat 8 v) } := rfl

@[simp] theorem renderLine_m (y : Nat) (f : Frame) (s : State) : (renderLine y f s).m = s.m := rfl

/-- A read by either agent keeps the record. -/
theorem exec_read_m {s t : State} {a : Nat} (h : exec (.mrd a) s = .next t ∨ exec (.peek a) s = .next t) :
    t.m = s.m := by
  rcases h with hmrd | hpeek
  · obtain ⟨-, rfl⟩ := onEngine_eq_next.mp (show execMrd a s = .next t from hmrd)
    exact readByte_m a s
  · obtain ⟨-, hk⟩ := onHost_eq_next.mp (show execPeek a s = .next t from hpeek)
    cases hk
    exact readByte_m a s

/-- The renderer's reads keep the record. -/
theorem exec_line_m {s t : State} {y : Nat} (h : exec (.line y) s = .next t) : t.m = s.m := by
  obtain ⟨-, f, -, hk⟩ := inFrame_eq_next.mp (show execLine y s = .next t from h)
  split at hk <;> cases hk
  exact renderLine_m y f s

/-- A write by either agent does one `memWrite` to the record and nothing else. -/
theorem exec_write_m {s t : State} {a v : Nat}
    (h : exec (.mwr a v) s = .next t ∨ exec (.poke a v) s = .next t) :
    t.m = { s.m with mem := memWrite s.m.mem a (BitVec.ofNat 8 v) } := by
  rcases h with hmwr | hpoke
  · obtain ⟨-, rfl⟩ := onEngine_eq_next.mp (show execMwr a v s = .next t from hmwr)
    exact writeByte_m a v s
  · obtain ⟨-, hk⟩ := onHost_eq_next.mp (show execPoke a v s = .next t from hpoke)
    cases hk
    exact writeByte_m a v s

/-- Settles O12: reads and LINE keep the record, and a write is one `memWrite`, which reads back v in its own cell and
the old byte in every other. -/
theorem memoryWritesChangeExactlyOneCell : Obligations.MemoryWritesChangeExactlyOneCell := by
  intro s t hwf
  refine ⟨fun a => exec_read_m, fun y => exec_line_m, fun a v h => ?_⟩
  have hm : t.m = { s.m with mem := memWrite s.m.mem a (BitVec.ofNat 8 v) } := exec_write_m h
  rw [hm]
  refine ⟨rfl, ?sameCell, fun x hx => ?otherCell⟩
  case sameCell => rw [memRead_memWrite hwf, if_pos rfl]
  case otherCell => rw [memRead_memWrite hwf, if_neg hx]

/-! ### Host transactions wait for the frame (R67). -/

theorem onHost_frame_some {s : State} {f : Frame} (hl : s.live = true) (hf : s.frame = some f)
    (k : Host.Outcome State Fault Refusal) : onHost s k = .refused .hostDuringFrame := by
  simp [onHost, hl, hf]

theorem execInit_frame_some {s : State} {f : Frame} (hf : s.frame = some f) :
    execInit s = .refused .hostDuringFrame := by
  simp [execInit, hf]

/-- Every host transaction but INIT stands behind the guard `onHost`. -/
theorem exec_host_guarded {i : Instr} (hi : isHostInstr i = true) (hinit : i ≠ .init) (s : State) :
    ∃ k, exec i s = onHost s k := by
  cases i with
  | peek | poke | keydnRow | keydnIgn | keyupRow | keyupIgn | load | frame | free => exact ⟨_, rfl⟩
  | init => exact absurd rfl hinit
  | mrd | mwr | iordUla | iordNone | iowrUla | iowrNone | setdone | vsync | exec | line => cases hi

/-- Settles O54: INIT refuses by its own check, every other host transaction by `onHost`. -/
theorem hostTransactionsWaitForFrame : Obligations.HostTransactionsWaitForFrame := by
  intro s f i hl hf hi
  by_cases hinit : i = .init
  · subst hinit
    exact execInit_frame_some hf
  · obtain ⟨k, hk⟩ := exec_host_guarded hi hinit s
    rw [hk, onHost_frame_some hl hf]

end Sys2Proof.Machine
end

section
/-! SUPPORT. Proofs of the statements about MRD, PEEK and POKE (40_memory_ops.md). -/

namespace Sys2Proof.Machine

/-- MRD on a context that exists is the read. -/
theorem exec_mrd_live {s : State} (h : s.live = true) (a : Nat) : exec (.mrd a) s = .next (readByte a s) :=
  onEngine_live h _

/-- PEEK between FRAMEs is the same read. -/
theorem exec_peek_ready {s : State} (h : s.Ready) (a : Nat) : exec (.peek a) s = .next (readByte a s) :=
  onHost_ready h _

/-- POKE between FRAMEs is the write, with the cell's byte from before it as the result. -/
theorem exec_poke_ready {s : State} (h : s.Ready) (a v : Nat) :
    exec (.poke a v) s = .next ((writeByte a v s).setResult (.byte (memRead s.m.mem a))) :=
  onHost_ready h _

/-- The read sets the result to the byte at the reduced address, and nothing else. -/
theorem readByte_eq (a : Nat) (s : State) :
    readByte a s = { s with result := .byte (memRead s.m.mem (a % 65536)) } := by
  rw [memRead_mod]
  rfl

/-- Settles O8: MRD is the read, and the read sets the result only. -/
theorem mrdAnswersStoredByte : Obligations.MrdAnswersStoredByte := by
  intro s a hlive
  rw [exec_mrd_live hlive, readByte_eq]

/-- Settles O10: PEEK is the same read as MRD's; its guard does not look at `done`. -/
theorem peekAnswersStoredByte : Obligations.PeekAnswersStoredByte := by
  intro s a hready
  rw [exec_peek_ready hready, readByte_eq]

/-- Settles O11: POKE is one `memWrite`, and its result was read from the memory before that write. -/
theorem pokeAnswersPreviousByte : Obligations.PokeAnswersPreviousByte := by
  intro s a v hready hwf
  refine ⟨_, exec_poke_ready hready a v, ?frame, fun x => ?cells⟩
  case frame =>
    rw [memRead_mod]
    rfl
  case cells => exact memRead_memWrite hwf a x (BitVec.ofNat 8 v)

end Sys2Proof.Machine
end

section
/-!
SUPPORT. Proofs of the statements about the ports (41_io_port.md), and what a LINE leaves in the border (43_renderer.md R182),
which says from which line on a port write's border shows.
-/

namespace Sys2Proof.Machine

/-! ### The rows of the two port channels (R140). -/

/-- Settles O3: the ULA row's mask and match compare the low byte, and only that, on either channel. -/
theorem portDecodeByLowByte : Obligations.PortDecodeByLowByte := by
  intro p v
  refine ⟨fun hula => ?ula, fun hother => ?other⟩
  case ula =>
    have hmatch : isUlaPort p = true := (isUlaPort_iff p).mpr hula
    exact ⟨if_pos hmatch, if_pos hmatch⟩
  case other =>
    have hmiss : ¬isUlaPort p = true := mt (isUlaPort_iff p).mp hother
    exact ⟨if_neg hmiss, if_neg hmiss⟩

/-! ### The port transactions on a context that exists. -/

theorem exec_iordNone_live {s : State} (h : s.live = true) (p : Nat) :
    exec (.iordNone p) s = .next (readNoPort s) := onEngine_live h _

theorem exec_iowrUla_live {s : State} (h : s.live = true) (p v : Nat) :
    exec (.iowrUla p v) s = .next (writeUla v s) := onEngine_live h _

theorem exec_iowrNone_live {s : State} (h : s.live = true) (p v : Nat) :
    exec (.iowrNone p v) s = .next (noEffect s) := onEngine_live h _

/-- The two latches of a ULA write as fields of the presented value, which need not be reduced first. -/
theorem writeUla_eq (v : Nat) (s : State) :
    writeUla v s =
      { s with m := { s.m with border := BitVec.ofNat 3 v, ear := v.testBit 4 }, result := .none } := by
  rw [← ulaBorder_eq, ← ulaEar_eq]
  rfl

/-- Settles O16: no port answers, so the byte is the constant one. -/
theorem iordOtherPortsReadFF : Obligations.IordOtherPortsReadFF :=
  fun _ p hlive => exec_iordNone_live hlive p

/-- Settles O18: the transaction is `noEffect`, which sets the result only. -/
theorem iowrOtherPortsNoEffect : Obligations.IowrOtherPortsNoEffect :=
  fun _ p v hlive => exec_iowrNone_live hlive p v

/-! ### The border of a rendered line (R182, R183). -/

/-- LINE goes on exactly inside a FRAME and for the scanlines 0 to 311, and then renders its row. -/
theorem exec_line_eq_next {s t : State} {y : Nat} :
    exec (.line y) s = .next t ↔ s.live = true ∧ ∃ f, s.frame = some f ∧ y ≤ 311 ∧ t = renderLine y f s := by
  constructor
  · intro h
    obtain ⟨hlive, f, hframe, hk⟩ := inFrame_eq_next.mp (show execLine y s = .next t from h)
    split at hk
    next hy =>
      cases hk
      exact ⟨hlive, f, hframe, hy, rfl⟩
    next => cases hk
  · rintro ⟨hlive, f, hframe, hy, rfl⟩
    exact execLine_next hlive hframe hy

/-- Row y of a whole frame's buffer after LINE y is the row rendered from the record. -/
theorem exec_line_buf_getElem? {s t : State} {y x : Nat} (h : exec (.line y) s = .next t)
    (hbuf : 109824 ≤ s.buf.length) (hx : x < 352) : t.buf[352 * y + x]? = (lineRow s.m y)[x]? := by
  obtain ⟨-, f, -, hy, rfl⟩ := exec_line_eq_next.mp h
  show (writeRow s.buf y (lineRow s.m y))[352 * y + x]? = _
  rw [writeRow_getElem? (length_lineRow _ _) (by omega), if_pos (by omega), Nat.add_sub_cancel_left]

/-- The border colour in the low three bits, and zeros above it. -/
theorem borderPixel_eq (m : MachineState) : borderPixel m = m.border.setWidth 8 := by
  have h : ∀ b : BitVec 3, pixelByte false b = b.setWidth 8 := by decide
  exact h m.border

theorem inBorderBand_iff {y : Nat} : inBorderBand y = true ↔ y < 48 ∨ 240 ≤ y := by
  simp [inBorderBand, bitmapTop, bottomBorderTop]

/-- Every pixel of a border band is border, and so are the 48 pixels at each end of a bitmap line. -/
theorem lineRow_border_getElem? {m : MachineState} {y x : Nat} (hx : x < 352)
    (h : y < 48 ∨ 240 ≤ y ∨ x < 48 ∨ 304 ≤ x) : (lineRow m y)[x]? = some (borderPixel m) := by
  unfold lineRow
  split
  next => exact List.getElem?_replicate_of_lt hx
  next hband =>
    have hends : x < 48 ∨ 304 ≤ x := by
      rw [inBorderBand_iff] at hband
      omega
    have hbitmap := length_bitmapPixels m (y - bitmapTop)
    rcases hends with hleft | hright
    · rw [List.append_assoc, List.getElem?_append_left (by simpa using hleft),
        List.getElem?_replicate_of_lt (by simpa using hleft)]
    · have hlen : (List.replicate borderLR (borderPixel m) ++ bitmapPixels m (y - bitmapTop)).length = 304 := by
        simp [hbitmap]
      rw [List.getElem?_append_right (by omega), hlen, List.getElem?_replicate_of_lt (show x - 304 < 48 by omega)]

/-- A border pixel of a line just rendered has the border colour the line was rendered with. -/
theorem exec_line_border {s t : State} {y x : Nat} (h : exec (.line y) s = .next t)
    (hbuf : 109824 ≤ s.buf.length) (hx : x < 352) (hborder : y < 48 ∨ 240 ≤ y ∨ x < 48 ∨ 304 ≤ x) :
    t.buf[352 * y + x]? = some (s.m.border.setWidth 8) := by
  rw [exec_line_buf_getElem? h hbuf hx, lineRow_border_getElem? hx hborder, borderPixel_eq]

/-- Settles O17: the write latches both fields, and a LINE from the state it leaves shows the border it latched. -/
theorem iowrUlaLatchesBorderAndEar : Obligations.IowrUlaLatchesBorderAndEar := by
  intro s p v hlive
  have hwrite : exec (.iowrUla p v) s =
      .next { s with m := { s.m with border := BitVec.ofNat 3 v, ear := v.testBit 4 }, result := .none } := by
    rw [exec_iowrUla_live hlive, writeUla_eq]
  refine ⟨hwrite, fun u y x hline hbuf hx hborder => ?laterLine⟩
  case laterLine =>
    rw [hwrite, andThen_next] at hline
    exact exec_line_border hline hbuf hx hborder

end Sys2Proof.Machine
end

section
/-! SUPPORT. Proofs of the statements about KEYDN and KEYUP (42_keyboard.md). -/

namespace Sys2Proof.Machine

/-! ### The key transactions between FRAMEs. -/

theorem exec_keydnRow_ready {s : State} (h : s.Ready) (k : Word) :
    exec (.keydnRow k) s =
      .next (setHalfRow s (keyRow k) (kbGet s.m.kb (keyRow k) &&& ~~~(keyMask k))) := onHost_ready h _

theorem exec_keyupRow_ready {s : State} (h : s.Ready) (k : Word) :
    exec (.keyupRow k) s =
      .next (setHalfRow s (keyRow k) (kbGet s.m.kb (keyRow k) ||| keyMask k)) := onHost_ready h _

theorem exec_keydnIgn_ready {s : State} (h : s.Ready) (k : Word) :
    exec (.keydnIgn k) s = .next (noEffect s) := onHost_ready h _

theorem exec_keyupIgn_ready {s : State} (h : s.Ready) (k : Word) :
    exec (.keyupIgn k) s = .next (noEffect s) := onHost_ready h _

/-! ### One half-row changed. -/

/-- The mask is the low byte of the key code. -/
theorem keyMask_eq (k : Word) : keyMask k = BitVec.ofNat 8 k.toNat := rfl

/-- Setting a half-row touches the keyboard and the result, and nothing else. -/
theorem setHalfRow_frame (s : State) (row : Nat) (v : Byte) :
    setHalfRow s row v = { s with m := { s.m with kb := (setHalfRow s row v).m.kb }, result := .none } := rfl

/-- A half-row replaced by a function g of its old value, as KEYDN and KEYUP replace theirs: every other half-row stays. -/
theorem setHalfRow_update_kb_getElem (s : State) (row : Nat) (g : Byte → Byte) (i : Fin 8) :
    (setHalfRow s row (g (kbGet s.m.kb row))).m.kb[i] =
      if i.val = row then g s.m.kb[i] else s.m.kb[i] := by
  have hset : kbGet (setHalfRow s row (g (kbGet s.m.kb row))).m.kb i =
      if row = i.val then g (kbGet s.m.kb row) else kbGet s.m.kb i := kbGet_kbSet _ _ _ _ i.isLt
  rw [← kbGet_eq, ← kbGet_eq, hset]
  by_cases hrow : i.val = row
  · rw [if_pos hrow.symm, if_pos hrow, hrow]
  · rw [if_neg (Ne.symm hrow), if_neg hrow]

/-- Settles O19: KEYDN replaces the half-row in the code's high byte by itself with the bits of the low byte cleared. -/
theorem keydnClearsBits : Obligations.KeydnClearsBits := by
  intro s k hready _
  refine ⟨_, exec_keydnRow_ready hready k, setHalfRow_frame _ _ _, fun i => ?halfRows⟩
  case halfRows =>
    rw [← keyMask_eq, ← keyRow_eq]
    exact setHalfRow_update_kb_getElem s (keyRow k) (· &&& ~~~(keyMask k)) i

/-- Settles O20: KEYUP replaces the half-row in the code's high byte by itself with the bits of the low byte set. -/
theorem keyupSetsBits : Obligations.KeyupSetsBits := by
  intro s k hready _
  refine ⟨_, exec_keyupRow_ready hready k, setHalfRow_frame _ _ _, fun i => ?halfRows⟩
  case halfRows =>
    rw [← keyMask_eq, ← keyRow_eq]
    exact setHalfRow_update_kb_getElem s (keyRow k) (· ||| keyMask k) i

/-- Settles O21: both rows for an invalid half-row are `noEffect`, which sets the result only. -/
theorem invalidHalfRowIgnored : Obligations.InvalidHalfRowIgnored :=
  fun _ k hready _ => ⟨exec_keydnIgn_ready hready k, exec_keyupIgn_ready hready k⟩

end Sys2Proof.Machine
end

section
/-! SUPPORT. Proofs of the statements about one scanline (43_renderer.md): its border, its bitmap and the pixel rule. -/

namespace Sys2Proof.Machine

/-- Settles O25: row y of the buffer is the rendered row, whose border pixels have the border colour of the state rendered. -/
theorem borderPixelsTakeBorder : Obligations.BorderPixelsTakeBorder :=
  fun _ _ _ _ hline hbuf hx hborder => exec_line_border hline hbuf hx hborder

/-! ### The colour of one bitmap pixel (R187). -/

theorem attrInk_toNat (a : Byte) : (attrInk a).toNat = a.toNat % 8 := by
  rw [attrInk, BitVec.extractLsb'_toNat, Nat.shiftRight_zero]

theorem attrPaper_toNat (a : Byte) : (attrPaper a).toNat = a.toNat / 8 % 8 := by
  rw [attrPaper, BitVec.extractLsb'_toNat, Nat.shiftRight_eq_div_pow]

theorem attrBright_toNat (a : Byte) : (attrBright a).toNat = a.toNat / 64 % 2 :=
  Nat.toNat_testBit a.toNat 6

theorem pixelByte_toNat (bright : Bool) (colour : BitVec 3) :
    (pixelByte bright colour).toNat = colour.toNat + 8 * bright.toNat := by
  revert bright colour
  decide

/-- Ink where the bit differs from the swap, paper elsewhere. -/
theorem pixelColour_toNat (bit : Bool) (attr : Byte) (phase : Bool) :
    (pixelColour bit attr phase).toNat =
      if (bit != (attr.getLsbD 7 && phase)) then attr.toNat % 8 else attr.toNat / 8 % 8 := by
  rw [← attrInk_toNat, ← attrPaper_toNat]
  exact apply_ite BitVec.toNat _ _ _

/-! ### The place of a cell's pixels in the row (R180, R181). -/

/-- A list made of blocks of one length n: item k of block c is at n * c + k. -/
theorem getElem?_flatMap_of_length_eq {α β : Type} {g : α → List β} {n k : Nat} (hg : ∀ a, (g a).length = n)
    (hk : k < n) (l : List α) (c : Nat) : (l.flatMap g)[n * c + k]? = l[c]?.bind fun a => (g a)[k]? := by
  induction l generalizing c with
  | nil => simp
  | cons a l ih =>
    rw [List.flatMap_cons]
    cases c with
    | zero =>
      rw [Nat.mul_zero, Nat.zero_add, List.getElem?_append_left (by rwa [hg])]
      rfl
    | succ c =>
      have hskip : n * (c + 1) + k - n = n * c + k := by
        rw [Nat.mul_succ]
        omega
      rw [List.getElem?_append_right (by rw [hg, Nat.mul_succ]; omega), hg, hskip, ih, List.getElem?_cons_succ]

/-- Pixel k of a cell takes bitmap bit 7 - k. -/
theorem cellPixels_getElem? (m : MachineState) (y0 c : Nat) {k : Nat} (hk : k < 8) :
    (cellPixels m y0 c)[k]? =
      some (pixel ((memRead m.mem (bmpAddr y0 c).toNat).getLsbD (7 - k))
        (memRead m.mem (attrAddr y0 c).toNat) (flashPhase m)) := by
  simp [cellPixels, hk]

theorem bitmapPixels_getElem? (m : MachineState) (y0 : Nat) {c k : Nat} (hc : c < 32) (hk : k < 8) :
    (bitmapPixels m y0)[8 * c + k]? = (cellPixels m y0 c)[k]? := by
  rw [bitmapPixels, getElem?_flatMap_of_length_eq (length_cellPixels m y0) hk,
    List.getElem?_range (show c < cellsPerRow from hc), Option.bind_some]

/-- Between its two borders a bitmap line is the row of the bitmap 48 scanlines higher. -/
theorem lineRow_bitmap_getElem? (m : MachineState) {y0 i : Nat} (hy : y0 < 192) (hi : i < 256) :
    (lineRow m (y0 + 48))[48 + i]? = (bitmapPixels m y0)[i]? := by
  have hband : ¬inBorderBand (y0 + 48) = true := by
    rw [inBorderBand_iff]
    omega
  have hleft : (List.replicate borderLR (borderPixel m)).length = 48 := List.length_replicate
  have hrow : y0 + 48 - bitmapTop = y0 := Nat.add_sub_cancel y0 48
  rw [lineRow, if_neg hband, hrow, List.append_assoc, List.getElem?_append_right (by omega), hleft,
    Nat.add_sub_cancel_left, List.getElem?_append_left (by rwa [length_bitmapPixels])]

/-- Settles O28: the colour's number is its 3-bit colour and the bright bit, and cell c starts 48 + 8 * c pixels into the row. -/
theorem pixelRule : Obligations.PixelRule := by
  refine ⟨fun bit attr phase => ?colour, fun m y0 c k hy hc hk => ?place⟩
  case colour => rw [pixel, pixelByte_toNat, pixelColour_toNat, attrBright_toNat]
  case place =>
    rw [Nat.add_assoc, lineRow_bitmap_getElem? m hy (by omega), bitmapPixels_getElem? m y0 hc hk,
      cellPixels_getElem? m y0 c hk]

end Sys2Proof.Machine
end

section
/-! SUPPORT. Proof of the statement about the frame interrupt (60_exceptions.md, R304): the engine operations each kind of
transaction adds to the CPU state. -/

namespace Sys2Proof.Machine

/-- No shape but those of FRAME, the internal steps, INIT and LOAD calls the engine: bus effects keep the CPU state. -/
theorem ExecShape.cpu_eq {s t : State} {i : Instr} (hS : ExecShape s i t) (hinternal : isInternalInstr i = false)
    (hframe : ∀ b, i ≠ .frame b) (hload : ∀ b, i ≠ .load b) (hinit : i ≠ .init) : t.m.cpu = s.m.cpu := by
  cases hS with
  | bus _ r ops => exact (foldl_busEffect_keeps ops s.m).1
  | keys => rfl
  | load b => exact absurd rfl (hload b)
  | noFrame b => exact absurd rfl (hframe b)
  | frame b => exact absurd rfl (hframe b)
  | init => exact absurd rfl hinit
  | free => rfl
  | call _ f g e hl hf hy hi => rcases hi with rfl | ⟨n, rfl⟩ <;> cases hinternal
  | line => cases hinternal

/-- A FRAME that runs adds one Interrupt call, then its 312 Execute calls (R253, R256). -/
theorem exec_frame_cpu_of_runs {s t : State} {b : List Byte} (h : exec (.frame b) s = .next t)
    (hb : 109824 ≤ b.length) (hdone : s.m.done = false) :
    ∃ es r u, t.m.cpu = es ++ .interrupt s.cfg.irqModeArg r u :: s.m.cpu ∧ es.length = 312 ∧
      ∀ e ∈ es, isExecute e = true := by
  obtain ⟨hready, -⟩ := onHost_eq_next.mp (show execFrame b s = .next t from h)
  obtain ⟨v, es, hv, S⟩ := execFrame_spec hready hb hdone
  obtain rfl : closeFrame v = t := Host.Outcome.next.inj (hv.symm.trans h)
  obtain ⟨hlength, hexecutes⟩ := S.executes
  have hcpu : v.m.cpu = es ++ (afterInterrupt b s).m.cpu := congrArg MachineState.cpu S.record
  exact ⟨es, _, _, hcpu, hlength, hexecutes⟩

/-- A FRAME that gives a shortfall or finds done set keeps the record (R251, R252). -/
theorem exec_frame_m_of_stopped {s t : State} {b : List Byte} (h : exec (.frame b) s = .next t)
    (hstop : b.length < 109824 ∨ s.m.done = true) : t.m = s.m := by
  obtain ⟨-, hk⟩ := onHost_eq_next.mp (show execFrame b s = .next t from h)
  split at hk
  next => cases hk; rfl
  next hlong =>
    rw [if_pos (hstop.resolve_left hlong)] at hk
    cases hk
    rfl

/-- INIT selects a fresh record (R280). -/
theorem exec_init_m {s t : State} (h : exec .init s = .next t) : t.m = .reset := by
  replace h : execInit s = .next t := h
  rw [execInit] at h
  split at h <;> cases h
  rfl

/-- LOAD leaves the engine reset and handed its registers, whatever the CPU state was (R211, R223). -/
theorem exec_load_cpu {s t : State} {b : List Byte} (h : exec (.load b) s = .next t) :
    ∃ header pc rBit7 ext, t.m.cpu = [.setRegisters header pc rBit7 ext, .reset] := by
  obtain ⟨-, hk⟩ := onHost_eq_next.mp (show execLoad b s = .next t from h)
  split at hk <;> cases hk
  exact ⟨_, _, _, _, rfl⟩

/-- INIT and LOAD start a CPU state that no interrupt has reached. -/
theorem not_isInterrupt_of_exec_restart {s t : State} {i : Instr} (hi : i = .init ∨ ∃ b, i = .load b)
    (h : exec i s = .next t) : ∀ e ∈ t.m.cpu, isInterrupt e = false := by
  rcases hi with rfl | ⟨b, rfl⟩
  · simp [exec_init_m h, MachineState.reset, isInterrupt]
  · obtain ⟨header, pc, rBit7, ext, hcpu⟩ := exec_load_cpu h
    simp [hcpu, isInterrupt]

/-- EXEC n adds one Execute call of n (R256). -/
theorem exec_exec_cpu {s t : State} {n : Int} (h : exec (.exec n) s = .next t) :
    ∃ r u, t.m.cpu = .execute n r u :: s.m.cpu := by
  obtain ⟨-, f, -, hk⟩ := inFrame_eq_next.mp (show execExec n s = .next t from h)
  cases hk
  rw [executeCycles_spec, (foldl_busEffect_keeps _ _).1]
  exact ⟨_, _, rfl⟩

/-- Settles O46: an Interrupt event enters the CPU state in a FRAME that runs and nowhere else, by what each kind of
transaction adds to it. -/
theorem interruptOnlyFromFrame : Obligations.InterruptOnlyFromFrame := by
  intro s t
  refine ⟨fun b h => ⟨exec_frame_cpu_of_runs h, fun hstop => ?stopped⟩, fun i hinternal hframe hload hinit h => ?other,
    fun i => not_isInterrupt_of_exec_restart, fun n => exec_exec_cpu, fun y h => ?line⟩
  case stopped => rw [exec_frame_m_of_stopped h hstop]
  case other => exact (exec_shape h).cpu_eq hinternal hframe hload hinit
  case line => rw [exec_line_m h]

end Sys2Proof.Machine
end

section
/-! SUPPORT. Proofs of the statements about the wire form (30_encoding.md): the encoder, the decoder and the rows of a
channel. -/

namespace Sys2Proof

/-! ### The fields of a packet read back (section 2). -/

@[simp] theorem endOfPacket_nil (i : Instr) : endOfPacket [] i = .ok i := rfl

@[simp] theorem decodeNoWord_zero (r : Except DecodeError Instr) : decodeNoWord 0 r = r := rfl

theorem decode_encodeHead_nil (w : Word) (c : Channel) : decode (encodeHead w c) = decodeOn c w [] :=
  decode_encodeHead w c []

theorem decode_encodeAddr (c : Channel) (a : Nat) (rest : List Byte) :
    decode (encodeAddr c a ++ rest) = decodeOn c (BitVec.ofNat 16 a) (writeVar (a / 65536) ++ rest) := by
  rw [encodeAddr, List.append_assoc, decode_encodeHead]

theorem decode_encodeAddr_nil (c : Channel) (a : Nat) :
    decode (encodeAddr c a) = decodeOn c (BitVec.ofNat 16 a) (writeVar (a / 65536)) :=
  decode_encodeHead _ c _

/-- The address fields of an encoded address give the whole address, whatever its width. -/
@[simp] theorem decodeAddr_writeVar (a : Nat) (mk : Nat → Instr) :
    decodeAddr (BitVec.ofNat 16 a) (writeVar (a / 65536)) mk = .ok (mk a) := by
  rw [decodeAddr, readVar_writeVar_nil, endOfPacket_nil, addr_split]

@[simp] theorem decodeAddrData_writeVar (a v : Nat) (mk : Nat → Nat → Instr) :
    decodeAddrData (BitVec.ofNat 16 a) (writeVar (a / 65536) ++ writeVar v) mk = .ok (mk a v) := by
  rw [decodeAddrData, readVar_writeVar, readVar_writeVar_nil, endOfPacket_nil, addr_split]

/-! ### The rows of a channel, by the check of the row (R92). -/

theorem portRead_of_iordUla {p : Nat} (h : (Instr.iordUla p).wellFormed = true) : portRead p = .iordUla p := if_pos h

theorem portRead_of_iordNone {p : Nat} (h : (Instr.iordNone p).wellFormed = true) : portRead p = .iordNone p :=
  if_neg (ne_true_of_eq_false (Bool.eq_false_of_not_eq_true' h))

theorem portWrite_of_iowrUla {p v : Nat} (h : (Instr.iowrUla p v).wellFormed = true) :
    portWrite p v = .iowrUla p v := if_pos h

theorem portWrite_of_iowrNone {p v : Nat} (h : (Instr.iowrNone p v).wellFormed = true) :
    portWrite p v = .iowrNone p v := if_neg (ne_true_of_eq_false (Bool.eq_false_of_not_eq_true' h))

theorem keyDown_of_keydnRow {k : Word} (h : (Instr.keydnRow k).wellFormed = true) : keyDown k = .keydnRow k := if_pos h

theorem keyDown_of_keydnIgn {k : Word} (h : (Instr.keydnIgn k).wellFormed = true) : keyDown k = .keydnIgn k :=
  if_neg (ne_true_of_eq_false (Bool.eq_false_of_not_eq_true' h))

theorem keyUp_of_keyupRow {k : Word} (h : (Instr.keyupRow k).wellFormed = true) : keyUp k = .keyupRow k := if_pos h

theorem keyUp_of_keyupIgn {k : Word} (h : (Instr.keyupIgn k).wellFormed = true) : keyUp k = .keyupIgn k :=
  if_neg (ne_true_of_eq_false (Bool.eq_false_of_not_eq_true' h))

/-- Settles O1: each channel's fields read back what the encoder wrote there, and on a channel of two rows the row's own
check, which well-formedness is, picks the row again. -/
theorem decodeOfEncode : Obligations.DecodeOfEncode := by
  intro i hwf
  cases i with
  | mrd a | peek a => rw [encode, decode_encodeAddr_nil, decodeOn, decodeAddr_writeVar]
  | mwr a v | poke a v => rw [encode, decode_encodeAddr, decodeOn, decodeAddrData_writeVar]
  | iordUla p => rw [encode, decode_encodeAddr_nil, decodeOn, decodeAddr_writeVar, portRead_of_iordUla hwf]
  | iordNone p => rw [encode, decode_encodeAddr_nil, decodeOn, decodeAddr_writeVar, portRead_of_iordNone hwf]
  | iowrUla p v => rw [encode, decode_encodeAddr, decodeOn, decodeAddrData_writeVar, portWrite_of_iowrUla hwf]
  | iowrNone p v => rw [encode, decode_encodeAddr, decodeOn, decodeAddrData_writeVar, portWrite_of_iowrNone hwf]
  | keydnRow k => rw [encode, decode_encodeHead_nil, decodeOn, endOfPacket_nil, keyDown_of_keydnRow hwf]
  | keydnIgn k => rw [encode, decode_encodeHead_nil, decodeOn, endOfPacket_nil, keyDown_of_keydnIgn hwf]
  | keyupRow k => rw [encode, decode_encodeHead_nil, decodeOn, endOfPacket_nil, keyUp_of_keyupRow hwf]
  | keyupIgn k => rw [encode, decode_encodeHead_nil, decodeOn, endOfPacket_nil, keyUp_of_keyupIgn hwf]
  | setdone | init | free | vsync => rw [encode, decode_encodeHead_nil, decodeOn, decodeNoWord_zero, endOfPacket_nil]
  | load s | frame b => rw [encode, decode_encodeHead, decodeOn, decodeNoWord_zero]
  | exec n =>
    rw [encode, decode_encodeHead, decodeOn, decodeNoWord_zero, readVar_writeVar_nil, endOfPacket_nil,
      natToInt_intToNat]
  | line y =>
    have hy : y ≤ 311 := of_decide_eq_true hwf
    have hword : (BitVec.ofNat 16 y).toNat = y := by
      rw [BitVec.toNat_ofNat]
      omega
    rw [encode, decode_encodeHead_nil, decodeOn, hword, if_pos hy, endOfPacket_nil]

/-! ### What a packet that decodes can be. -/

theorem endOfPacket_eq_ok {rest : List Byte} {i j : Instr} (h : endOfPacket rest i = .ok j) : i = j := by
  unfold endOfPacket at h
  split at h <;> cases h
  rfl

theorem decodeAddr_eq_ok {w : Word} {rest : List Byte} {mk : Nat → Instr} {i : Instr}
    (h : decodeAddr w rest mk = .ok i) : ∃ a, mk a = i := ⟨_, endOfPacket_eq_ok h⟩

theorem decodeAddrData_eq_ok {w : Word} {rest : List Byte} {mk : Nat → Nat → Instr} {i : Instr}
    (h : decodeAddrData w rest mk = .ok i) : ∃ a v, mk a v = i := ⟨_, _, endOfPacket_eq_ok h⟩

theorem decodeNoWord_eq_ok {w : Word} {r : Except DecodeError Instr} {i : Instr} (h : decodeNoWord w r = .ok i) :
    r = .ok i := by
  unfold decodeNoWord at h
  split at h
  · exact h
  · cases h

/-- Of two rows, one checked by the test and the other by its negation, the test picks one whose check holds. -/
theorem wellFormed_ite {test : Bool} {i j : Instr} (hi : i.wellFormed = test) (hj : j.wellFormed = !test) :
    (if test then i else j).wellFormed = true := by
  cases test with
  | false => exact hj
  | true => exact hi

theorem portRead_wellFormed (p : Nat) : (portRead p).wellFormed = true := wellFormed_ite rfl rfl

theorem portWrite_wellFormed (p v : Nat) : (portWrite p v).wellFormed = true := wellFormed_ite rfl rfl

theorem keyDown_wellFormed (k : Word) : (keyDown k).wellFormed = true := wellFormed_ite rfl rfl

theorem keyUp_wellFormed (k : Word) : (keyUp k).wellFormed = true := wellFormed_ite rfl rfl

/-- Whatever a channel's fields give belongs to its row. -/
theorem decodeOn_wellFormed {c : Channel} {w : Word} {rest : List Byte} {i : Instr}
    (h : decodeOn c w rest = .ok i) : i.wellFormed = true := by
  cases c with
  | engineMemRead | hostPeek =>
    obtain ⟨a, rfl⟩ := decodeAddr_eq_ok h
    rfl
  | engineMemWrite | hostPoke =>
    obtain ⟨a, v, rfl⟩ := decodeAddrData_eq_ok h
    rfl
  | enginePortRead =>
    obtain ⟨p, rfl⟩ := decodeAddr_eq_ok h
    exact portRead_wellFormed p
  | enginePortWrite =>
    obtain ⟨p, v, rfl⟩ := decodeAddrData_eq_ok h
    exact portWrite_wellFormed p v
  | hostKeydown =>
    obtain rfl := endOfPacket_eq_ok h
    exact keyDown_wellFormed w
  | hostKeyup =>
    obtain rfl := endOfPacket_eq_ok h
    exact keyUp_wellFormed w
  | engineSide | hostInit | hostFree | internalVsync | internalExec =>
    obtain rfl := endOfPacket_eq_ok (decodeNoWord_eq_ok h)
    rfl
  | hostLoad | hostFrame =>
    cases decodeNoWord_eq_ok h
    rfl
  | internalLine =>
    rw [decodeOn] at h
    split at h
    next hy =>
      obtain rfl := endOfPacket_eq_ok h
      exact decide_eq_true hy
    next => cases h

/-- Settles O2: a packet that decodes names a channel, and whatever that channel gives belongs to its row. -/
theorem decodedInstructionIsWellFormed : Obligations.DecodedInstructionIsWellFormed := by
  intro bs i h
  unfold decode at h
  split at h
  · cases h
  · exact decodeOn_wellFormed h

/-- Settles O4: the `_ROW` rows' mask and match compare the bits above bit 10, which are all clear exactly when the high
byte is below 8. -/
theorem keyCodeSelectsRow : Obligations.KeyCodeSelectsRow := by
  intro k
  refine ⟨fun hvalid => ?valid, fun hinvalid => ?invalid⟩
  case valid =>
    have hmatch : isRowCode k = true := (Machine.isRowCode_iff k).mpr hvalid
    exact ⟨if_pos hmatch, if_pos hmatch⟩
  case invalid =>
    have hmiss : ¬isRowCode k = true := mt (Machine.isRowCode_iff k).mp (by omega)
    exact ⟨if_neg hmiss, if_neg hmiss⟩

/-- Settles O5: the decoder run on each packet. -/
theorem wordsDecodeToTheirRows : Obligations.WordsDecodeToTheirRows :=
  ⟨rfl, rfl, rfl, rfl, rfl, rfl, rfl, rfl, rfl, rfl, rfl⟩

end Sys2Proof
end

section
/-! SUPPORT. Proofs of the statements about one step, and about the guards that refuse a transaction
(60_exceptions.md; 30_encoding.md section 1). -/

namespace Sys2Proof.Machine

/-! ### One step. -/

/-- Between FRAMEs a call that decodes is exec of its instruction on the context it is addressed to. -/
theorem step_of_call {s : State} {c : Call} {rest : List Call} {i : Instr} (hframe : s.frame = none)
    (hinbox : s.inbox = c :: rest) (hdecode : decode c.bytes = .ok i) :
    step s = exec i (address c.to? (s.setInbox rest)) := by
  simp only [step, hframe, takeNext, hinbox, hdecode]

theorem step_of_undecodable {s : State} {c : Call} {rest : List Call} {e : DecodeError} (hframe : s.frame = none)
    (hinbox : s.inbox = c :: rest) (hdecode : decode c.bytes = .error e) : step s = .refused (.undecodable e) := by
  simp only [step, hframe, takeNext, hinbox, hdecode]

theorem step_of_no_call {s : State} (hframe : s.frame = none) (hinbox : s.inbox = []) : step s = .next s := by
  simp only [step, hframe, takeNext, hinbox]

/-- Settles O6: the three outcomes of taking the next call. -/
theorem stepTakesTheNextCall : Obligations.StepTakesTheNextCall :=
  fun _ hframe =>
    ⟨fun _ _ _ => step_of_call hframe, fun _ _ _ => step_of_undecodable hframe, step_of_no_call hframe⟩

theorem step_in_frame {s : State} {f : Frame} (hframe : s.frame = some f) : step s = sequencerStep f s := by
  simp only [step, hframe]

/-- Settles O7: the sequencer's step by the frame's stage, and at stage EXEC by whether a scanline is left. -/
theorem stepContinuesFrame : Obligations.StepContinuesFrame := by
  intro s f hframe
  rw [step_in_frame hframe, sequencerStep]
  refine ⟨fun hstage => ?vsync, fun hstage hy => ?exec, fun hstage => ?line, fun hstage hy => ?last⟩
  case vsync => rw [hstage]; rfl
  case exec => rw [hstage]; exact if_pos hy
  case line => rw [hstage]; rfl
  case last => rw [hstage]; exact if_neg (Nat.not_lt.mpr hy)

/-! ### Guards that refuse. -/

theorem onEngine_freed {s : State} (h : s.live = false) (t : State) : onEngine s t = .refused .freedHandle := by
  simp [onEngine, h]

theorem onHost_freed {s : State} (h : s.live = false) (k : Host.Outcome State Fault Refusal) :
    onHost s k = .refused .freedHandle := by
  simp [onHost, h]

theorem inFrame_freed {s : State} (h : s.live = false) (k : Frame → Host.Outcome State Fault Refusal) :
    inFrame s k = .refused .freedHandle := by
  simp [inFrame, h]

theorem inFrame_ready {s : State} (h : s.Ready) (k : Frame → Host.Outcome State Fault Refusal) :
    inFrame s k = .refused .outsideFrame := by
  obtain ⟨hlive, hframe⟩ := h
  simp [inFrame, hlive, hframe]

/-- R281: on a context that does not exist, every transaction but INIT stops at its guard. -/
theorem exec_freed {s : State} {i : Instr} (h : s.live = false) (hinit : i ≠ .init) :
    exec i s = .refused .freedHandle := by
  cases i with
  | mrd | mwr | iordUla | iordNone | iowrUla | iowrNone | setdone => exact onEngine_freed h _
  | peek | poke | keydnRow | keydnIgn | keyupRow | keyupIgn | load | frame | free => exact onHost_freed h _
  | vsync | exec | line => exact inFrame_freed h _
  | init => exact absurd rfl hinit

/-- Settles O55: the three internal steps stand behind the guard `inFrame`. -/
theorem internalStepsOnlyInsideFrame : Obligations.InternalStepsOnlyInsideFrame := by
  intro s i hready hinternal
  cases i with
  | vsync | exec | line => exact inFrame_ready hready _
  | mrd | mwr | iordUla | iordNone | iowrUla | iowrNone | setdone => cases hinternal
  | peek | poke | keydnRow | keydnIgn | keyupRow | keyupIgn | load | frame | init | free => cases hinternal

/-- Settles O49: SETDONE writes one field of the record and the result. -/
theorem setdoneRaisesDone : Obligations.SetdoneRaisesDone := fun _ hlive => onEngine_live hlive _

end Sys2Proof.Machine
end

section
/-! SUPPORT. Proofs of the statements about the contexts of the process (46_lifecycle.md). -/

namespace Sys2Proof.Machine

/-! ### The contexts that exist (R280, R282). -/

theorem mem_unpark {h : Nat} {ps : List (Nat × MachineState)} {p : Nat × MachineState} :
    p ∈ unpark h ps ↔ p ∈ ps ∧ p.1 ≠ h := by
  simp [unpark]

/-- Under the invariant, every context that exists is in order and its handle has been given out. -/
theorem State.Inv.ok_of_mem_parkAll {s : State} (hs : s.Inv) {p : Nat × MachineState} (hp : p ∈ parkAll s) :
    p.2.Ok ∧ p.1 < s.nextHandle := by
  rcases (mem_parkAll s p).mp hp with hparked | ⟨hlive, rfl⟩
  · exact hs.parked p hparked
  · exact ⟨hs.selected, hs.issued hlive⟩

theorem State.Inv.parkAll_rising {s : State} (hs : s.Inv) : (parkAll s).Pairwise fun p q => p.1 < q.1 := by
  unfold parkAll
  split
  · exact park_rising hs.rising hs.handle
  · exact hs.rising

/-- A handle that is neither the selected one nor a parked one is no existing context's. -/
theorem ne_of_mem_parkAll {s : State} {h : Nat} (hne : h ≠ s.handle) (hn : ∀ p ∈ s.parked, p.1 ≠ h) :
    ∀ p ∈ parkAll s, p.1 ≠ h := by
  intro p hp
  rcases (mem_parkAll s p).mp hp with hparked | ⟨-, rfl⟩
  · exact hn p hparked
  · exact hne.symm

/-! ### Addressing a call (R281, R303). -/

theorem select_self (s : State) : select s.handle s = s := if_pos rfl

theorem select_of_parkedAt {s : State} {h : Nat} {m : MachineState} (hne : h ≠ s.handle)
    (hm : parkedAt h (parkAll s) = some m) :
    select h s = { s with m := m, live := true, handle := h, parked := unpark h (parkAll s) } := by
  rw [select, if_neg hne, hm]

theorem select_of_parkedAt_none {s : State} {h : Nat} (hne : h ≠ s.handle) (hm : parkedAt h (parkAll s) = none) :
    select h s = { s with m := .reset, live := false, handle := h, parked := parkAll s } := by
  rw [select, if_neg hne, hm]

/-- A handle no context exists under. -/
theorem select_of_not_parked {s : State} {h : Nat} (hne : h ≠ s.handle) (hn : ∀ p ∈ s.parked, p.1 ≠ h) :
    select h s = { s with m := .reset, live := false, handle := h, parked := parkAll s } :=
  select_of_parkedAt_none hne (parkedAt_eq_none (ne_of_mem_parkAll hne hn))

theorem select_frame (h : Nat) (s : State) : (select h s).frame = s.frame := by
  unfold select
  split
  · rfl
  · split <;> rfl

/-- Settles O53: a parked handle is found among the contexts that exist, the selected one is left alone, and a handle
found nowhere leaves no context selected, so every guard refuses. -/
theorem addressingSelectsContext : Obligations.AddressingSelectsContext := by
  refine ⟨fun s h m hs hm => ?parked, select_self, fun s h hne hn => ?missing⟩
  case parked =>
    have hne : h ≠ s.handle := hs.handle (h, m) hm
    have hfound : parkedAt h (parkAll s) = some m :=
      parkedAt_mem hs.parkAll_rising ((mem_parkAll s _).mpr (.inl hm))
    rw [select_of_parkedAt hne hfound]
    refine ⟨rfl, rfl, rfl, fun p => ?_⟩
    rw [mem_unpark, mem_parkAll, or_and_right]
    refine or_congr_right ⟨And.left, fun hp => ⟨hp, ?_⟩⟩
    rw [hp.2]
    exact hne.symm
  case missing =>
    have hselect := select_of_not_parked hne hn
    rw [hselect]
    refine ⟨rfl, rfl, mem_parkAll s, fun i hinit =>
      ⟨exec_freed rfl hinit, fun bytes rest hframe hinbox hdecode => ?_⟩⟩
    have hselect' : select h (s.setInbox rest) =
        { s.setInbox rest with m := .reset, live := false, handle := h, parked := parkAll (s.setInbox rest) } :=
      select_of_not_parked hne hn
    rw [step_of_call hframe hinbox hdecode, address, hselect']
    exact exec_freed rfl hinit

/-! ### INIT and FREE. -/

theorem exec_init_of_no_frame {s : State} (h : s.frame = none) : exec .init s = .next (allocate s) := by
  show execInit s = _
  simp only [execInit, h]

theorem exec_init_eq_next {s t : State} (h : exec .init s = .next t) : s.frame = none ∧ t = allocate s := by
  replace h : execInit s = .next t := h
  rw [execInit] at h
  split at h <;> cases h
  exact ⟨by assumption, rfl⟩

/-- INIT's handle is no existing context's: every one given out is below it. -/
theorem State.Inv.ne_allocate_handle {s : State} (hs : s.Inv) :
    ∀ p ∈ (allocate s).parked, p.1 ≠ (allocate s).handle :=
  fun _ hp => Nat.ne_of_lt (hs.ok_of_mem_parkAll hp).2

/-- Settles O50: INIT is `allocate`, which sets the selected context aside and takes the next handle. -/
theorem initCreatesFreshContext : Obligations.InitCreatesFreshContext :=
  fun s hframe => ⟨_, exec_init_of_no_frame hframe, rfl, mem_parkAll s, State.Inv.ne_allocate_handle⟩

theorem exec_free_ready {s : State} (h : s.Ready) :
    exec .free s = .next { s with live := false, result := .none } := onHost_ready h _

/-- Addressing a freed handle again, another one in between or not, meets no context: none is parked under it. -/
theorem select_select_freed {s : State} (hfreed : s.live = false) (hhandle : ∀ p ∈ s.parked, p.1 ≠ s.handle)
    (h : Nat) : (select s.handle (select h s)).live = false := by
  by_cases hh : h = s.handle
  · rw [hh, select_self, select_self, hfreed]
  · have hall : parkAll s = s.parked := if_neg (ne_true_of_eq_false hfreed)
    cases hfound : parkedAt h (parkAll s) with
    | some m =>
      rw [select_of_parkedAt hh hfound, select_of_not_parked (Ne.symm hh)]
      intro p hp
      exact hhandle p (hall ▸ (mem_unpark.mp hp).1)
    | none =>
      rw [select_of_parkedAt_none hh hfound, select_of_not_parked (Ne.symm hh)]
      intro p hp
      exact hhandle p (hall ▸ hp)

/-- Settles O51: FREE clears `live` alone, every guard but INIT's reads it, and no addressing brings it back. -/
theorem freedContextRefusesEverything : Obligations.FreedContextRefusesEverything := by
  refine ⟨fun s => exec_free_ready, fun s i => exec_freed, fun s t h i hs hfree hinit => ?addressed⟩
  case addressed =>
    obtain ⟨hready, -⟩ := onHost_eq_next.mp (show execFree s = .next t from hfree)
    obtain rfl : _ = t := Host.Outcome.next.inj ((exec_free_ready hready).symm.trans hfree)
    exact exec_freed (select_select_freed (s := { s with live := false, result := .none }) rfl hs.handle h) hinit

/-! ### A transaction does not see the other contexts (R282). -/

/-- The state with other contexts set aside. -/
def State.withParked (s : State) (ps : List (Nat × MachineState)) : State := { s with parked := ps }

theorem busOp_withParked (op : BusOp) (s : State) (ps : List (Nat × MachineState)) :
    busOp op (s.withParked ps) = (busOp op s).withParked ps := by
  cases op with
  | mrd | mwr | setdone => rfl
  | iord p => simp only [busOp]; split <;> rfl
  | iowr p v => simp only [busOp]; split <;> rfl

theorem runBus_withParked (ops : List BusOp) (s : State) (ps : List (Nat × MachineState)) :
    (runBus ops (s.withParked ps)).1 = (runBus ops s).1.withParked ps := by
  induction ops generalizing s with
  | nil => rfl
  | cons op ops ih => simp only [runBus, busOp_withParked, ih]

theorem callBus_withParked (s : State) (ps : List (Nat × MachineState)) :
    callBus (s.withParked ps) = ((callBus s).1.withParked ps, (callBus s).2) :=
  Prod.ext (runBus_withParked (nextCall s).ops (takeCall s) ps) (runBus_replies _ rfl)

theorem raiseFrameInterrupt_withParked (f : Frame) (s : State) (ps : List (Nat × MachineState)) :
    raiseFrameInterrupt f (s.withParked ps) = (raiseFrameInterrupt f s).withParked ps := by
  simp only [raiseFrameInterrupt, callBus_withParked]
  rfl

theorem executeCycles_withParked (n : Int) (f : Frame) (s : State) (ps : List (Nat × MachineState)) :
    executeCycles n f (s.withParked ps) = (executeCycles n f s).withParked ps := by
  simp only [executeCycles, callBus_withParked]
  rfl

theorem execVsync_withParked {s t : State} (ps : List (Nat × MachineState)) (h : execVsync s = .next t) :
    execVsync (s.withParked ps) = .next (t.withParked ps) := by
  obtain ⟨hlive, f, hframe, hk⟩ := inFrame_eq_next.mp h
  cases hk
  exact inFrame_eq_next.mpr ⟨hlive, f, hframe, congrArg _ (raiseFrameInterrupt_withParked f s ps)⟩

theorem execExec_withParked {s t : State} {n : Int} (ps : List (Nat × MachineState)) (h : execExec n s = .next t) :
    execExec n (s.withParked ps) = .next (t.withParked ps) := by
  obtain ⟨hlive, f, hframe, hk⟩ := inFrame_eq_next.mp h
  cases hk
  exact inFrame_eq_next.mpr ⟨hlive, f, hframe, congrArg _ (executeCycles_withParked n f s ps)⟩

theorem execLine_withParked {s t : State} {y : Nat} (ps : List (Nat × MachineState)) (h : execLine y s = .next t) :
    execLine y (s.withParked ps) = .next (t.withParked ps) := by
  obtain ⟨hlive, f, hframe, hy, rfl⟩ := exec_line_eq_next.mp (show exec (.line y) s = .next t from h)
  exact execLine_next hlive hframe hy

theorem scanlines_withParked (k : Nat) {s t : State} (ps : List (Nat × MachineState)) (h : scanlines k s = .next t) :
    scanlines k (s.withParked ps) = .next (t.withParked ps) := by
  induction k generalizing s with
  | zero => cases h; rfl
  | succ k ih =>
    obtain ⟨u, hexec, h⟩ := andThen_eq_next.mp h
    obtain ⟨v, hline, h⟩ := andThen_eq_next.mp h
    exact andThen_eq_next.mpr ⟨_, execExec_withParked ps hexec,
      andThen_eq_next.mpr ⟨_, execLine_withParked ps hline, ih h⟩⟩

theorem runFrame_withParked {s t : State} (ps : List (Nat × MachineState)) (h : runFrame s = .next t) :
    runFrame (s.withParked ps) = .next (t.withParked ps) := by
  obtain ⟨u, hvsync, h⟩ := andThen_eq_next.mp h
  obtain ⟨v, hlines, h⟩ := andThen_eq_next.mp h
  cases h
  exact andThen_eq_next.mpr ⟨_, execVsync_withParked ps hvsync,
    andThen_eq_next.mpr ⟨_, scanlines_withParked frameH ps hlines, rfl⟩⟩

/-- A transaction but INIT runs alike whatever other contexts there are, and leaves them as they were. -/
theorem exec_withParked {s t : State} {i : Instr} (hinit : i ≠ .init) (ps : List (Nat × MachineState))
    (h : exec i s = .next t) : exec i (s.withParked ps) = .next (t.withParked ps) := by
  cases i with
  | mrd | mwr | iordUla | iordNone | iowrUla | iowrNone | setdone =>
    obtain ⟨hlive, rfl⟩ := onEngine_eq_next.mp h
    exact onEngine_live hlive _
  | peek | poke | keydnRow | keydnIgn | keyupRow | keyupIgn | free =>
    obtain ⟨hready, hk⟩ := onHost_eq_next.mp h
    cases hk
    exact onHost_ready hready _
  | load b =>
    obtain ⟨hready, hk⟩ := onHost_eq_next.mp (show execLoad b s = .next t from h)
    split at hk <;> cases hk
    next img himg =>
      refine onHost_eq_next.mpr ⟨hready, ?_⟩
      rw [show (s.withParked ps).cfg = s.cfg from rfl, himg]
      rfl
  | frame b =>
    obtain ⟨hready, hk⟩ := onHost_eq_next.mp (show execFrame b s = .next t from h)
    refine onHost_eq_next.mpr ⟨hready, ?_⟩
    rw [show (s.withParked ps).m = s.m from rfl]
    split at hk
    next hshort => cases hk; exact if_pos hshort
    next hlong =>
      rw [if_neg hlong]
      split at hk
      next hdone => cases hk; exact if_pos hdone
      next hdone =>
        rw [if_neg hdone]
        exact runFrame_withParked ps hk
  | vsync => exact execVsync_withParked ps h
  | exec n => exact execExec_withParked ps h
  | line y => exact execLine_withParked ps h
  | init => exact absurd rfl hinit

/-- A FRAME that runs changes the record, the buffer, the result and the engine input, and leaves none in progress. -/
theorem closeFrame_eq {s u : State} {b : List Byte} {es : List CpuEvent}
    (S : Scanned (afterInterrupt b s) u { stage := .exec, y := 0, carry := carryBefore s 0 } 312 es) :
    closeFrame u = { s with m := (closeFrame u).m, frame := none, buf := u.buf, result := .count 0,
                            engine := s.engine.drop 313, engineCalls := s.engineCalls + 313 } := by
  refine (congrArg closeFrame S.only).trans ?_
  simp only [afterInterrupt, List.drop_tail]
  rfl

/-- No shape but INIT's touches the other contexts or the selected handle. -/
theorem ExecShape.keeps_contexts {s t : State} {i : Instr} (hS : ExecShape s i t) (hinit : i ≠ .init) :
    t.parked = s.parked ∧ t.handle = s.handle := by
  cases hS with
  | frame b u es _ _ _ S =>
    rw [closeFrame_eq S]
    exact ⟨rfl, rfl⟩
  | init => exact absurd rfl hinit
  | bus | keys | load | noFrame | free | call | line => exact ⟨rfl, rfl⟩

/-- Settles O52: the shapes of a next state keep the other contexts, every operation runs alike whatever they are, and
INIT only sets one more aside. -/
theorem contextsShareNothing : Obligations.ContextsShareNothing := by
  refine ⟨fun s t i hinit h => ?other, fun s t h => ?init⟩
  case other =>
    obtain ⟨hparked, hhandle⟩ := (exec_shape h).keeps_contexts hinit
    exact ⟨hparked, hhandle, fun ps => exec_withParked hinit ps h⟩
  case init =>
    obtain ⟨-, rfl⟩ := exec_init_eq_next h
    exact ⟨rfl, fun p hp => (mem_parkAll s p).mpr (.inl hp),
      fun hlive => (mem_parkAll s _).mpr (.inr ⟨hlive, rfl⟩), State.Inv.ne_allocate_handle⟩

end Sys2Proof.Machine
end

section
/-! SUPPORT. Proofs of the statements about the terminal flag, reset and the invariant (10_state.md,
70_reset_and_hazards.md). -/

namespace Sys2Proof.Machine

/-! ### The terminal flag (R24, R283). -/

/-- The engine's transactions set `done` by SETDONE alone, and never clear it. -/
theorem foldl_busEffect_done (ops : List BusOp) (m : MachineState) :
    (ops.foldl busEffect m).done = true ↔ m.done = true ∨ BusOp.setdone ∈ ops := by
  induction ops generalizing m with
  | nil => simp
  | cons op ops ih =>
    have hop : (busEffect m op).done = true ↔ m.done = true ∨ BusOp.setdone = op := by
      cases op with
      | iowr p v => simp only [busEffect]; split <;> simp
      | mrd | mwr | iord | setdone => simp [busEffect]
    rw [List.foldl_cons, ih, hop, List.mem_cons, or_assoc]

theorem machineAfterCalls_done (s : State) (n : Nat) :
    (machineAfterCalls s n).done = true ↔
      s.m.done = true ∨ ∃ k < n, BusOp.setdone ∈ (upcoming s k).ops := by
  induction n with
  | zero => simp [machineAfterCalls]
  | succ n ih =>
    rw [machineAfterCalls, foldl_busEffect_done, ih, or_assoc, Nat.exists_lt_succ_right]

/-- No shape but those of INIT and LOAD clears `done`. -/
theorem ExecShape.done_kept {s t : State} {i : Instr} (hS : ExecShape s i t) (hinit : i ≠ .init)
    (hload : ∀ b, i ≠ .load b) (hdone : s.m.done = true) : t.m.done = true := by
  cases hS with
  | bus _ r ops => exact (foldl_busEffect_done ops s.m).mpr (.inl hdone)
  | load b => exact absurd rfl (hload b)
  | frame b u es _ _ hd => exact absurd hdone (ne_true_of_eq_false hd)
  | init => exact absurd rfl hinit
  | call => exact (foldl_busEffect_done (nextCall s).ops s.m).mpr (.inl hdone)
  | keys | noFrame | free | line => exact hdone

/-- Where a `done` that is new comes from: SETDONE by itself, or in a call the transaction makes to the engine. -/
theorem ExecShape.done_source {s t : State} {i : Instr} (hS : ExecShape s i t) (hbefore : ¬s.m.done = true)
    (hdone : t.m.done = true) :
    i = .setdone ∨ ((i = .vsync ∨ ∃ n, i = .exec n) ∧ BusOp.setdone ∈ (upcoming s 0).ops) ∨
      ((∃ b, i = .frame b) ∧ ∃ k < 313, BusOp.setdone ∈ (upcoming s k).ops) := by
  cases hS with
  | bus _ r ops _ hsource =>
    have hops : BusOp.setdone ∈ ops := ((foldl_busEffect_done ops s.m).mp hdone).resolve_left hbefore
    exact .inl (hsource.resolve_right (not_not_intro hops))
  | call _ f g e _ _ _ hi =>
    rw [← nextCall_eq]
    exact .inr (.inl ⟨hi, ((foldl_busEffect_done _ _).mp hdone).resolve_left hbefore⟩)
  | frame b u es _ _ _ S =>
    rw [closeFrame_m S] at hdone
    exact .inr (.inr ⟨⟨b, rfl⟩, ((machineAfterCalls_done s 313).mp hdone).resolve_left hbefore⟩)
  | load | init => cases hdone
  | keys | noFrame | free | line => exact absurd hdone hbefore

/-- Settles O60: by the shapes of a next state, which say what each transaction lets the engine do to the record. -/
theorem doneChangesOnlyBySignalOrReset : Obligations.DoneChangesOnlyBySignalOrReset :=
  fun _ _ _ h => ⟨fun hdone hinit hload => (exec_shape h).done_kept hinit hload hdone,
    fun hbefore => (exec_shape h).done_source (ne_true_of_eq_false hbefore)⟩

/-! ### Reset (R37, R331). -/

/-- Settles O56: the reset record, read field by field. -/
theorem resetState : Obligations.ResetState :=
  ⟨memRead_nil, by decide, rfl, rfl, rfl, rfl, rfl, rfl, rfl, rfl⟩

/-- Memory with no byte listed is in canonical form, and the reset CPU state is `Engine.Reset` alone. -/
theorem MachineState.reset_ok : MachineState.reset.Ok := ⟨rfl, rfl⟩

/-- Settles O57: one context in order, none set aside, no FRAME. -/
theorem invariantHoldsAtReset : Obligations.InvariantHoldsAtReset where
  selected := MachineState.reset_ok
  parked := nofun
  rising := .nil
  issued _ := Nat.zero_lt_one
  handle := nofun
  frame := nofun

/-! ### The invariant. -/

/-- A state with the contexts of one that meets the invariant meets it too, if its own record and frame do. -/
theorem State.Inv.of_same_contexts {s t : State} (hs : s.Inv) (hparked : t.parked = s.parked)
    (hhandle : t.handle = s.handle) (hnext : t.nextHandle = s.nextHandle) (hlive : t.live = true → s.live = true)
    (hm : t.m.Ok) (hframe : ∀ f, t.frame = some f → t.live = true ∧ f.y ≤ 312 ∧ frameBytes ≤ t.buf.length) :
    t.Inv where
  selected := hm
  parked := by rw [hparked, hnext]; exact hs.parked
  rising := by rw [hparked]; exact hs.rising
  issued h := by rw [hhandle, hnext]; exact hs.issued (hlive h)
  handle := by rw [hparked, hhandle]; exact hs.handle
  frame := hframe

theorem State.Inv.setInbox {s : State} (hs : s.Inv) (c : List Call) : (s.setInbox c).Inv :=
  hs.of_same_contexts rfl rfl rfl id hs.selected hs.frame

/-- Addressing a call between FRAMEs. -/
theorem State.Inv.select {s : State} (hs : s.Inv) (hframe : s.frame = none) (h : Nat) : (select h s).Inv := by
  by_cases hh : h = s.handle
  · rwa [hh, select_self]
  have hframe' : ∀ f, (Machine.select h s).frame = some f →
      (Machine.select h s).live = true ∧ f.y ≤ 312 ∧ frameBytes ≤ (Machine.select h s).buf.length := by
    rw [select_frame, hframe]
    nofun
  cases hfound : parkedAt h (parkAll s) with
  | some m =>
    have hmem : (h, m) ∈ parkAll s := mem_of_parkedAt hfound
    rw [select_of_parkedAt hh hfound] at hframe' ⊢
    exact {
      selected := (hs.ok_of_mem_parkAll hmem).1
      parked := fun p hp => hs.ok_of_mem_parkAll (mem_unpark.mp hp).1
      rising := hs.parkAll_rising.filter _
      issued := fun _ => (hs.ok_of_mem_parkAll hmem).2
      handle := fun p hp => (mem_unpark.mp hp).2
      frame := hframe' }
  | none =>
    rw [select_of_parkedAt_none hh hfound] at hframe' ⊢
    exact {
      selected := MachineState.reset_ok
      parked := fun p hp => hs.ok_of_mem_parkAll hp
      rising := hs.parkAll_rising
      issued := nofun
      handle := ne_of_parkedAt_none hfound
      frame := hframe' }

theorem State.Inv.address {s : State} (hs : s.Inv) (hframe : s.frame = none) (to? : Option Nat) :
    (address to? s).Inv := by
  cases to? with
  | none => exact hs
  | some h => exact hs.select hframe h

theorem State.Inv.allocate {s : State} (hs : s.Inv) (hframe : s.frame = none) : (allocate s).Inv where
  selected := MachineState.reset_ok
  parked _ hp := (hs.ok_of_mem_parkAll hp).imp_right Nat.lt_succ_of_lt
  rising := hs.parkAll_rising
  issued _ := Nat.lt_succ_self _
  handle := hs.ne_allocate_handle
  frame _ hf := absurd (hframe.symm.trans hf) nofun

/-- Every shape leaves the selected record in order. -/
theorem ExecShape.ok {s t : State} {i : Instr} (hS : ExecShape s i t) (h : s.m.Ok) : t.m.Ok := by
  obtain ⟨hmem, hcpu⟩ := h
  refine ⟨hS.mem_wf hmem, ?_⟩
  cases hS with
  | bus _ r ops => exact (congrArg List.getLast? (foldl_busEffect_keeps ops s.m).1).trans hcpu
  | frame b u es _ _ _ S =>
    have hu : u.m.cpu = es ++ (afterInterrupt b s).m.cpu := congrArg MachineState.cpu S.record
    exact (congrArg List.getLast? hu).trans
      (List.mem_getLast?_append_of_mem_getLast? (List.mem_getLast?_append_of_mem_getLast? (l₁ := [_]) hcpu))
  | call _ f g e => exact List.mem_getLast?_append_of_mem_getLast? (l₁ := [e]) hcpu
  | load | init => rfl
  | keys | noFrame | free | line => exact hcpu

/-- Every transaction keeps the invariant. -/
theorem ExecShape.inv {s t : State} {i : Instr} (hS : ExecShape s i t) (hs : s.Inv) : t.Inv := by
  have hm : t.m.Ok := hS.ok hs.selected
  have hno : s.Ready → ∀ f, s.frame = some f → t.live = true ∧ f.y ≤ 312 ∧ frameBytes ≤ t.buf.length :=
    fun hready f hf => absurd (hready.2.symm.trans hf) nofun
  cases hS with
  | bus => exact hs.of_same_contexts rfl rfl rfl id hm hs.frame
  | keys _ _ _ hready => exact hs.of_same_contexts rfl rfl rfl id hm (hno hready)
  | load _ _ hready => exact hs.of_same_contexts rfl rfl rfl id hm (hno hready)
  | noFrame _ _ hready => exact hs.of_same_contexts rfl rfl rfl id hm (hno hready)
  | free hready => exact hs.of_same_contexts rfl rfl rfl nofun hm (hno hready)
  | init hframe => exact hs.allocate hframe
  | frame b u es hready _ _ S =>
    rw [closeFrame_eq S] at hm ⊢
    exact hs.of_same_contexts rfl rfl rfl id hm nofun
  | call _ f g e hlive hframe hy =>
    obtain ⟨-, hle, hbuf⟩ := hs.frame f hframe
    refine hs.of_same_contexts rfl rfl rfl id hm fun g' hg => ?_
    obtain rfl : g = g' := Option.some.inj hg
    exact ⟨hlive, hy ▸ hle, hbuf⟩
  | line y f hlive hframe hy =>
    obtain ⟨-, -, hbuf⟩ := hs.frame f hframe
    refine hs.of_same_contexts rfl rfl rfl id hm fun g' hg => ?_
    obtain rfl := Option.some.inj hg
    have hlength : (writeRow s.buf y (lineRow s.m y)).length = s.buf.length :=
      length_writeRow (length_lineRow _ _) (by simp only [frameBytes] at hbuf; omega)
    exact ⟨hlive, Nat.succ_le_succ hy, hlength ▸ hbuf⟩

/-- The end of a frame keeps the invariant: the counter is no part of it. -/
theorem State.Inv.closeFrame {s : State} (hs : s.Inv) : (closeFrame s).Inv :=
  hs.of_same_contexts rfl rfl rfl id hs.selected nofun

theorem exec_inv {s t : State} {i : Instr} (hs : s.Inv) (h : exec i s = .next t) : t.Inv := (exec_shape h).inv hs

/-- The step that comes next inside a FRAME is one of the three internal steps or the end of the frame. -/
theorem sequencerStep_inv {s t : State} {f : Frame} (hs : s.Inv) (h : sequencerStep f s = .next t) : t.Inv := by
  unfold sequencerStep at h
  split at h
  · exact exec_inv (i := .vsync) hs h
  · split at h
    · exact exec_inv (i := .exec (request f)) hs h
    · cases h
      exact hs.closeFrame
  · exact exec_inv (i := .line f.y) hs h

/-- Settles O58: inside a FRAME by its steps; between FRAMEs the call is addressed and run, each of which keeps the
invariant. -/
theorem invariantKeptByStep : Obligations.InvariantKeptByStep := by
  intro s t hs h
  cases hframe : s.frame with
  | some f => exact sequencerStep_inv hs (step_in_frame hframe ▸ h)
  | none =>
    cases hinbox : s.inbox with
    | nil =>
      obtain rfl : s = t := Host.Outcome.next.inj ((step_of_no_call hframe hinbox).symm.trans h)
      exact hs
    | cons c rest =>
      cases hdecode : decode c.bytes with
      | error e => cases (step_of_undecodable hframe hinbox hdecode).symm.trans h
      | ok i =>
        rw [step_of_call hframe hinbox hdecode] at h
        exact exec_inv ((hs.setInbox rest).address hframe c.to?) h

end Sys2Proof.Machine
end

section
/-! SUPPORT. Proofs of the statements about writes to memory (40_memory_ops.md): MWR's effect, the write-then-read law
and the order of two writes. -/

namespace Sys2Proof.Machine

/-- MWR on a context that exists is the write. -/
theorem exec_mwr_live {s : State} (h : s.live = true) (a v : Nat) : exec (.mwr a v) s = .next (writeByte a v s) :=
  onEngine_live h _

/-- A second engine transaction meets the guard the first one passed, if the first leaves the context in existence. -/
theorem andThen_onEngine {s t : State} (hlive : t.live = s.live) (g : State → State) :
    andThen (onEngine s t) (fun u => onEngine u (g u)) = onEngine s (g t) := by
  cases h : s.live with
  | false => rw [onEngine_freed h, onEngine_freed h, andThen]
  | true => rw [onEngine_live h, onEngine_live h, andThen_next, onEngine_live (hlive.trans h)]

/-- Settles O9: MWR is one `memWrite`, which knows no region. -/
theorem mwrStoresLowByte : Obligations.MwrStoresLowByte :=
  fun _ a v hlive hwf => ⟨_, exec_mwr_live hlive a v, rfl, fun x => memRead_memWrite hwf a x (BitVec.ofNat 8 v)⟩

/-- A write by either agent between FRAMEs: the cell, and a result that differs with the agent. -/
theorem exec_write_ready {s : State} (h : s.Ready) {a v : Nat} {i : Instr} (hi : i ∈ [Instr.mwr a v, .poke a v]) :
    ∃ r, exec i s = .next ((s.setMem (memWrite s.m.mem a (BitVec.ofNat 8 v))).setResult r) := by
  rcases List.mem_pair.mp hi with rfl | rfl
  · exact ⟨_, exec_mwr_live h.1 a v⟩
  · exact ⟨_, exec_poke_ready h a v⟩

/-- A read by either agent between FRAMEs. -/
theorem exec_read_ready {s : State} (h : s.Ready) {a : Nat} {i : Instr} (hi : i ∈ [Instr.mrd a, .peek a]) :
    exec i s = .next (readByte a s) := by
  rcases List.mem_pair.mp hi with rfl | rfl
  · exact exec_mrd_live h.1 a
  · exact exec_peek_ready h a

/-- A write between FRAMEs at an address that is a modulo 65536, then a read of a. -/
theorem exec_read_after_write {s : State} (h : s.Ready) (hwf : s.m.mem.wf = true) {a b v : Nat}
    (hab : a % 65536 = b % 65536) {w r : Instr} (hw : w ∈ [Instr.mwr b v, .poke b v])
    (hr : r ∈ [Instr.mrd a, .peek a]) :
    ∃ t u, exec w s = .next t ∧ exec r t = .next u ∧ u.result = .byte (BitVec.ofNat 8 v) := by
  obtain ⟨x, hwrite⟩ := exec_write_ready h hw
  have hready : ((s.setMem (memWrite s.m.mem b (BitVec.ofNat 8 v))).setResult x).Ready := h
  refine ⟨_, _, hwrite, exec_read_ready hready hr, congrArg Result.byte ?_⟩
  exact (memRead_memWrite hwf b a (BitVec.ofNat 8 v)).trans (if_pos hab)

/-- Settles O13: a and a + 65536 are one cell, and a read of it after the write finds the byte written. -/
theorem writeThenReadReturnsValue : Obligations.WriteThenReadReturnsValue := by
  intro s a v hready hwf w hw r hr
  rcases List.mem_append.mp (show w ∈ [Instr.mwr a v, .poke a v] ++ [.mwr (a + 65536) v, .poke (a + 65536) v] from hw)
    with hsame | hwrapped
  · exact exec_read_after_write hready hwf rfl hsame hr
  · exact exec_read_after_write hready hwf (Nat.add_mod_right a 65536).symm hwrapped hr

/-- Two writes by the engine: both memory writes in order. -/
theorem andThen_exec_mwr (s : State) (a b v w : Nat) :
    andThen (exec (.mwr a v) s) (exec (.mwr b w)) =
      onEngine s ((s.setMem (memWrite (memWrite s.m.mem a (BitVec.ofNat 8 v)) b (BitVec.ofNat 8 w))).setResult .none) :=
  andThen_onEngine (t := writeByte a v s) rfl (writeByte b w)

/-- Settles O14: by the laws of `memWrite`, whatever agents write. -/
theorem memoryWritesCommute : Obligations.MemoryWritesCommute := by
  intro s a b v w hwf
  refine ⟨fun hne => ?swap, fun heq => ?second, fun hready f hf g hg => ?agents⟩
  case swap => rw [andThen_exec_mwr, andThen_exec_mwr, memWrite_comm hwf hne]
  case second =>
    rw [andThen_exec_mwr, memWrite_memWrite hwf heq]
    rfl
  case agents =>
    obtain ⟨rf, hfs⟩ := exec_write_ready hready hf
    obtain ⟨rg, hgs⟩ := exec_write_ready hready hg
    obtain ⟨rfg, hfg⟩ :=
      exec_write_ready (s := (s.setMem (memWrite s.m.mem a (BitVec.ofNat 8 v))).setResult rf) hready hg
    obtain ⟨rgf, hgf⟩ :=
      exec_write_ready (s := (s.setMem (memWrite s.m.mem b (BitVec.ofNat 8 w))).setResult rg) hready hf
    rw [hfs, hgs, andThen_next, andThen_next, hfg, hgf]
    refine ⟨_, rfl, fun hne => ⟨_, rfl, ?_⟩, fun heq => ⟨_, rfl, ?_⟩⟩
    · simp only [setResult_m, setMem_m_mem, memWrite_comm hwf hne]
      rfl
    · simp only [setResult_m, setMem_m_mem, memWrite_memWrite hwf heq]
      rfl

end Sys2Proof.Machine
end

section
/-! SUPPORT. Proofs of the statements about the keyboard: the multiplexer (41_io_port.md, R141), and what two key
transactions do one after the other (42_keyboard.md). -/

namespace Sys2Proof.Machine

/-! ### The keyboard multiplexer. -/

theorem exec_iordUla_live {s : State} (h : s.live = true) (p : Nat) : exec (.iordUla p) s = .next (readUla p s) :=
  onEngine_live h _

/-- A running AND over the items that are selected has bit j exactly where the start and every selected item have it. -/
theorem getLsbD_foldl_and (sel : Nat → Bool) (row : Nat → Byte) (l : List Nat) (r : Byte) (j : Nat) :
    (l.foldl (fun r i => if sel i then r else r &&& row i) r).getLsbD j = true ↔
      r.getLsbD j = true ∧ ∀ i ∈ l, sel i = false → (row i).getLsbD j = true := by
  induction l generalizing r with
  | nil => simp
  | cons i l ih =>
    rw [List.foldl_cons, ih, List.forall_mem_cons, ← and_assoc]
    refine and_congr_left' ?_
    cases hsel : sel i <;> simp

/-- Bit j of the multiplexer's byte is the AND of bit j of the half-rows whose select bit is clear. -/
theorem kbSelect_getLsbD (kb : Vector Byte 8) (sel : Byte) {j : Nat} (hj : j < 8) :
    (kbSelect kb sel).getLsbD j = true ↔ ∀ i : Fin 8, sel.getLsbD i = false → (kb[i]).getLsbD j = true := by
  have hones : (0xFF#8).getLsbD j = true := by
    rw [show 0xFF#8 = BitVec.allOnes 8 from rfl, BitVec.getLsbD_allOnes]
    exact decide_eq_true hj
  rw [kbSelect, getLsbD_foldl_and, and_iff_right hones]
  constructor
  · intro h i hi
    rw [← kbGet_eq]
    exact h i (List.mem_range.mpr i.isLt) hi
  · intro h i hi hsel
    exact kbGet_eq kb ⟨i, List.mem_range.mp hi⟩ ▸ h ⟨i, List.mem_range.mp hi⟩ hsel

/-- The select bits of a port address of any width are the bits of its second byte. -/
theorem portSel_getLsbD (p : Nat) {i : Nat} (hi : i < 8) : (portSel p).getLsbD i = (p / 256).testBit i := by
  rw [portSel, BitVec.getLsbD_extractLsb', portOf, BitVec.getLsbD_ofNat, show 256 = 2 ^ 8 from rfl,
    Nat.testBit_div_two_pow, Nat.add_comm i 8]
  simp [hi, show 8 + i < 16 by omega]

/-- Settles O15: IORD on the ULA port answers the multiplexer's byte, whose select byte is the port's second byte. -/
theorem iordUlaAndsSelectedRows : Obligations.IordUlaAndsSelectedRows := by
  intro s p hlive
  refine ⟨_, exec_iordUla_live hlive p, fun j hj => ?_⟩
  rw [kbSelect_getLsbD _ _ hj]
  exact forall_congr' fun i => by rw [portSel_getLsbD p i.isLt]

/-! ### A key transaction as one update, valid half-row or not. -/

/-- A half-row replaced by a function of its old value. -/
def updateHalfRow (row : Nat) (g : Byte → Byte) (s : State) : State := setHalfRow s row (g (kbGet s.m.kb row))

theorem updateHalfRow_kb_getElem (row : Nat) (g : Byte → Byte) (s : State) (i : Fin 8) :
    (updateHalfRow row g s).m.kb[i] = if i.val = row then g s.m.kb[i] else s.m.kb[i] :=
  setHalfRow_update_kb_getElem s row g i

/-- An update changes the keyboard and the result only. -/
theorem updateHalfRow_eq (row : Nat) (g : Byte → Byte) (s : State) :
    updateHalfRow row g s = { s with m := { s.m with kb := (updateHalfRow row g s).m.kb }, result := .none } :=
  setHalfRow_frame s row _

/-- There is no half-row 8 or above to update (R162). -/
theorem updateHalfRow_of_invalid {row : Nat} (h : 8 ≤ row) (g : Byte → Byte) (s : State) :
    updateHalfRow row g s = noEffect s := by
  have hkb : ∀ v, kbSet s.m.kb row v = s.m.kb := fun v => Vector.ext fun i hi => by
    rw [kbSet, Vector.getElem_setIfInBounds hi, if_neg (by omega)]
  rw [updateHalfRow, setHalfRow, hkb]
  rfl

theorem le_keyRow_of_not_isRowCode {k : Word} (h : ¬isRowCode k = true) : 8 ≤ keyRow k := by
  rw [isRowCode_iff] at h
  rw [keyRow_eq]
  omega

/-- KEYDN on its channel, whatever the half-row: the mask's bits cleared in it. -/
theorem exec_keyDown (k : Word) (s : State) :
    exec (keyDown k) s = onHost s (.next (updateHalfRow (keyRow k) (· &&& ~~~keyMask k) s)) := by
  by_cases hrow : isRowCode k = true
  · rw [keyDown, if_pos hrow]
    rfl
  · rw [keyDown, if_neg hrow, updateHalfRow_of_invalid (le_keyRow_of_not_isRowCode hrow)]
    rfl

/-- KEYUP on its channel, whatever the half-row: the mask's bits set in it. -/
theorem exec_keyUp (k : Word) (s : State) :
    exec (keyUp k) s = onHost s (.next (updateHalfRow (keyRow k) (· ||| keyMask k) s)) := by
  by_cases hrow : isRowCode k = true
  · rw [keyUp, if_pos hrow]
    rfl
  · rw [keyUp, if_neg hrow, updateHalfRow_of_invalid (le_keyRow_of_not_isRowCode hrow)]
    rfl

/-! ### Two key transactions. -/

/-- Clearing a mask's bits and then setting them is setting them. -/
theorem and_not_or_mask (b m : Byte) : (b &&& ~~~m) ||| m = b ||| m := by
  ext i hi
  cases h : m[i] <;> simp [h]

/-- Setting a mask's bits changes nothing exactly where all of them are set. -/
theorem or_mask_eq_self_iff (b m : Byte) : b ||| m = b ↔ b &&& m = m := by
  constructor <;> intro h
  · rw [← h, BitVec.or_comm, BitVec.and_comm]
    ext i hi
    cases hm : m[i] <;> simp [hm]
  · rw [← h]
    ext i hi
    cases hb : b[i] <;> simp [hb]

/-- Settles O22: the press clears the mask's bits in the half-row and the release sets them, so the pair sets them. -/
theorem pressReleaseLaw : Obligations.PressReleaseLaw := by
  intro s k r hready hrow
  have hr : keyRow k = r.val := (keyRow_eq k).trans hrow
  set t := updateHalfRow (keyRow k) (· &&& ~~~keyMask k) s with ht
  set u := updateHalfRow (keyRow k) (· ||| keyMask k) t with hu
  have hpress : exec (keyDown k) s = .next t := (exec_keyDown k s).trans (onHost_ready hready _)
  have hrelease : exec (keyUp k) t = .next u := (exec_keyUp k t).trans (onHost_ready hready _)
  have hkb : ∀ i : Fin 8, u.m.kb[i] = if i = r then s.m.kb[i] ||| keyMask k else s.m.kb[i] := by
    intro i
    rw [hu, updateHalfRow_kb_getElem, ht, updateHalfRow_kb_getElem, hr]
    simp only [Fin.ext_iff]
    split
    · exact and_not_or_mask _ _
    · rfl
  have hm : u.m = { s.m with kb := u.m.kb } := rfl
  refine ⟨t, u, hpress, hrelease, hkb, ?same⟩
  case same =>
    rw [← keyMask_eq, ← or_mask_eq_self_iff]
    constructor
    · intro h
      rw [← (hkb r).trans (if_pos rfl), h]
    · intro h
      have hsame : u.m.kb = s.m.kb := Vector.ext fun i hi => (hkb ⟨i, hi⟩).trans (by
        split
        next hir => rw [← hir] at h; exact h
        next => rfl)
      rw [hm, hsame]

/-- Two updates commute where they touch different half-rows, or where their functions do. -/
theorem updateHalfRow_comm {row row' : Nat} {g g' : Byte → Byte} (h : row ≠ row' ∨ ∀ b, g (g' b) = g' (g b))
    (s : State) :
    updateHalfRow row' g' (updateHalfRow row g s) = updateHalfRow row g (updateHalfRow row' g' s) := by
  have hkb : (updateHalfRow row' g' (updateHalfRow row g s)).m.kb =
      (updateHalfRow row g (updateHalfRow row' g' s)).m.kb := by
    refine Vector.ext fun i hi => ?_
    have hget := fun (row : Nat) (g : Byte → Byte) (t : State) => updateHalfRow_kb_getElem row g t ⟨i, hi⟩
    simp only [Fin.getElem_fin] at hget
    rw [hget, hget, hget, hget]
    rcases h with hrows | hcomm
    · split_ifs with h1 h2
      · exact absurd (h2.symm.trans h1) hrows
      all_goals rfl
    · split_ifs
      · exact (hcomm _).symm
      all_goals rfl
  rw [updateHalfRow_eq row' g', hkb]
  rfl

/-- A second host transaction meets the guard the first one passed. -/
theorem andThen_onHost {s t : State} (hlive : t.live = s.live) (hframe : t.frame = s.frame) (g : State → State) :
    andThen (onHost s (.next t)) (fun u => onHost u (.next (g u))) = onHost s (.next (g t)) := by
  unfold onHost
  cases h : s.live with
  | false => rfl
  | true =>
    cases hf : s.frame with
    | some f => rfl
    | none =>
      rw [h] at hlive
      rw [hf] at hframe
      simp [hlive, hframe]

/-- Two transactions that are updates commute where the updates do, behind the same guard. -/
theorem andThen_exec_comm_of_updates {i j : Instr} {row row' : Nat} {g g' : Byte → Byte}
    (hi : ∀ s, exec i s = onHost s (.next (updateHalfRow row g s)))
    (hj : ∀ s, exec j s = onHost s (.next (updateHalfRow row' g' s)))
    (h : row ≠ row' ∨ ∀ b, g (g' b) = g' (g b)) (s : State) :
    andThen (exec i s) (exec j) = andThen (exec j s) (exec i) := by
  rw [hi s, hj s, funext hi, funext hj,
    andThen_onHost (s := s) (t := updateHalfRow row g s) rfl rfl (updateHalfRow row' g'),
    andThen_onHost (s := s) (t := updateHalfRow row' g' s) rfl rfl (updateHalfRow row g), updateHalfRow_comm h]

/-- Setting the bits of one mask and clearing those of another, disjoint one, in either order. -/
theorem or_and_not_of_disjoint {m n : Byte} (h : m &&& n = 0) (b : Byte) :
    (b ||| n) &&& ~~~m = (b &&& ~~~m) ||| n := by
  ext i hi
  have hbit : (m[i] && n[i]) = false := by
    rw [← BitVec.getElem_and, h]
    exact BitVec.getElem_zero hi
  cases hm : m[i] <;> cases hn : n[i] <;> simp_all

/-- Settles O23: each transaction is an update behind the host's guard, and two updates of one half-row commute bit by
bit. -/
theorem keyTransactionsCommute : Obligations.KeyTransactionsCommute := by
  intro s k l
  refine ⟨?presses, ?releases, fun hapart => ?mixed⟩
  case presses =>
    refine andThen_exec_comm_of_updates (exec_keyDown k) (exec_keyDown l) (.inr fun b => ?_) s
    simp only [BitVec.and_assoc, BitVec.and_comm (~~~keyMask l)]
  case releases =>
    refine andThen_exec_comm_of_updates (exec_keyUp k) (exec_keyUp l) (.inr fun b => ?_) s
    simp only [BitVec.or_assoc, BitVec.or_comm (keyMask l)]
  case mixed =>
    rw [← keyMask_eq, ← keyMask_eq, ← keyRow_eq, ← keyRow_eq] at hapart
    exact andThen_exec_comm_of_updates (exec_keyDown k) (exec_keyUp l) (hapart.imp_right or_and_not_of_disjoint) s

end Sys2Proof.Machine
end

section
/-! SUPPORT. Proofs of the statements about LINE (43_renderer.md): its effect on the buffer, the addresses of the video
bytes, and what a row is drawn from. -/

namespace Sys2Proof.Machine

/-- Settles O24: LINE is `writeRow` on the buffer and a step of the sequencer. -/
theorem lineWritesItsRowOnly : Obligations.LineWritesItsRowOnly := by
  intro s f y hlive hframe hy hbuf
  refine ⟨_, execLine_next hlive hframe hy, rfl, ?length, fun i hi => ?others⟩
  case length => exact length_writeRow (length_lineRow _ _) (by omega)
  case others => exact (writeRow_getElem? (length_lineRow _ _) (by omega) i).trans (if_neg (by omega))

/-! ### The addresses of the video bytes (R185, R186). -/

/-- Two bit fields side by side, as a number. -/
theorem toNat_append_eq_add {m n : Nat} (x : BitVec m) (y : BitVec n) : (x ++ y).toNat = x.toNat * 2 ^ n + y.toNat := by
  rw [BitVec.toNat_append, ← Nat.shiftLeft_add_eq_or_of_lt y.isLt, Nat.shiftLeft_eq]

/-- The OR of two numbers whose bits do not meet is their sum. -/
theorem or_eq_add_of_dvd {a b : Nat} (k : Nat) (ha : 2 ^ k ∣ a) (hb : b < 2 ^ k) : a ||| b = a + b := by
  obtain ⟨c, rfl⟩ := ha
  exact (Nat.two_pow_add_eq_or_of_lt hb c).symm

/-- A field of a row number, shifted to its place in a 16-bit address. -/
theorem toNat_field_shiftLeft (y0 start len k : Nat) (h : len + k ≤ 16) :
    (((BitVec.ofNat 8 y0).extractLsb' start len).setWidth 16 <<< k).toNat =
      y0 % 256 / 2 ^ start % 2 ^ len * 2 ^ k := by
  have hfield : y0 % 256 / 2 ^ start % 2 ^ len < 2 ^ len := Nat.mod_lt _ (Nat.two_pow_pos len)
  have hshifted : y0 % 256 / 2 ^ start % 2 ^ len * 2 ^ k < 2 ^ 16 :=
    calc _ < 2 ^ len * 2 ^ k := Nat.mul_lt_mul_of_pos_right hfield (Nat.two_pow_pos k)
      _ = 2 ^ (len + k) := (Nat.pow_add 2 len k).symm
      _ ≤ 2 ^ 16 := Nat.pow_le_pow_right Nat.two_pos h
  have hwide : y0 % 256 / 2 ^ start % 2 ^ len < 2 ^ 16 :=
    (Nat.le_mul_of_pos_right _ (Nat.two_pow_pos k)).trans_lt hshifted
  rw [BitVec.toNat_shiftLeft, BitVec.toNat_setWidth, BitVec.extractLsb'_toNat, BitVec.toNat_ofNat,
    Nat.shiftRight_eq_div_pow, Nat.mod_eq_of_lt hwide, Nat.shiftLeft_eq, Nat.mod_eq_of_lt hshifted]

/-- The bitmap address as a number, for a row of the bitmap. -/
theorem bmpAddr_toNat {y0 c : Nat} (hy : y0 < 192) (hc : c < 32) :
    (bmpAddr y0 c).toNat = 0x4000 + 2048 * (y0 / 64) + 256 * (y0 % 8) + 32 * (y0 / 8 % 8) + c := by
  have hcell : (BitVec.ofNat 16 c).toNat = c := by
    rw [BitVec.toNat_ofNat]
    omega
  simp only [bmpAddr, BitVec.toNat_or, hcell, toNat_field_shiftLeft y0 6 2 11 (by decide),
    toNat_field_shiftLeft y0 0 3 8 (by decide), toNat_field_shiftLeft y0 3 3 5 (by decide),
    show (0x4000#16).toNat = 0x4000 from rfl, Nat.pow_zero, Nat.div_one]
  rw [or_eq_add_of_dvd (a := 0x4000) 14 (by omega) (by omega),
    or_eq_add_of_dvd (a := 0x4000 + _) 11 (by omega) (by omega),
    or_eq_add_of_dvd (a := 0x4000 + _ + _) 8 (by omega) (by omega),
    or_eq_add_of_dvd (a := 0x4000 + _ + _ + _) 5 (by omega) (by omega)]
  omega

theorem attrAddr_toNat {y0 c : Nat} (hy : y0 < 192) (hc : c < 32) :
    (attrAddr y0 c).toNat = 0x5800 + y0 / 8 * 32 + c := by
  rw [attrAddr, BitVec.toNat_ofNat]
  simp only [attrBase]
  omega

/-- The fields of format BMPADDR, as a number. -/
theorem bmpFields_toNat {y0 c : Nat} (hy : y0 < 192) (hc : c < 32) :
    (0b010#3 ++ (BitVec.ofNat 8 y0).extractLsb' 6 2 ++ (BitVec.ofNat 8 y0).extractLsb' 0 3 ++
        (BitVec.ofNat 8 y0).extractLsb' 3 3 ++ BitVec.ofNat 5 c).toNat =
      0x4000 + 2048 * (y0 / 64) + 256 * (y0 % 8) + 32 * (y0 / 8 % 8) + c := by
  simp only [toNat_append_eq_add, BitVec.extractLsb'_toNat, BitVec.toNat_ofNat, Nat.shiftRight_eq_div_pow]
  omega

/-- The fields of format ATTRADDR, as a number. -/
theorem attrFields_toNat {y0 c : Nat} (hy : y0 < 192) (hc : c < 32) :
    (0b010110#6 ++ (BitVec.ofNat 8 y0).extractLsb' 3 5 ++ BitVec.ofNat 5 c).toNat = 0x5800 + y0 / 8 * 32 + c := by
  simp only [toNat_append_eq_add, BitVec.extractLsb'_toNat, BitVec.toNat_ofNat, Nat.shiftRight_eq_div_pow]
  omega

/-- Settles O27: both sides of each layout are one number, whose digits give the row and the cell of an address back. -/
theorem videoAddressLayout : Obligations.VideoAddressLayout := by
  refine ⟨fun y0 c hy hc => ⟨?bmp, ?attr⟩, fun a hlow hhigh => ?onto⟩
  case bmp => exact BitVec.eq_of_toNat_eq ((bmpAddr_toNat hy hc).trans (bmpFields_toNat hy hc).symm)
  case attr => exact BitVec.eq_of_toNat_eq ((attrAddr_toNat hy hc).trans (attrFields_toNat hy hc).symm)
  case onto =>
    obtain ⟨third, line, row, c, hthird, hline, hrow, hc, rfl⟩ :
        ∃ third line row c, third < 3 ∧ line < 8 ∧ row < 8 ∧ c < 32 ∧
          a = 0x4000 + 2048 * third + 256 * line + 32 * row + c :=
      ⟨(a - 0x4000) / 2048, a / 256 % 8, a / 32 % 8, a % 32, by omega, by omega, by omega, by omega, by omega⟩
    have hy : 64 * third + 8 * row + line < 192 := by omega
    refine ⟨64 * third + 8 * row + line, c, hy, hc, ?address, fun y1 d hy1 hd ha => ?unique⟩
    case address =>
      have hthird' : (64 * third + 8 * row + line) / 64 = third := by omega
      have hline' : (64 * third + 8 * row + line) % 8 = line := by omega
      have hrow' : (64 * third + 8 * row + line) / 8 = 8 * third + row := by omega
      rw [bmpAddr_toNat hy hc, hthird', hline', hrow', Nat.mul_add_mod, Nat.mod_eq_of_lt hrow]
    case unique =>
      rw [bmpAddr_toNat hy1 hd] at ha
      have hthird' : y1 / 64 = third := by omega
      have hline' : y1 % 8 = line := by omega
      have hrow' : y1 / 8 % 8 = row := by omega
      omega

/-! ### What a row is drawn from (R180, R187). -/

/-- Settles O26: pixel k of cell c is the rendered row's, and the row's two addresses are these numbers. -/
theorem bitmapPixelsFollowPixelRule : Obligations.BitmapPixelsFollowPixelRule := by
  intro s t y0 c k hline hbuf hy hc hk
  rw [← bmpAddr_toNat hy hc, ← attrAddr_toNat hy hc, Nat.add_assoc, Nat.add_assoc,
    exec_line_buf_getElem? hline hbuf (by omega), lineRow_bitmap_getElem? s.m hy (by omega),
    bitmapPixels_getElem? s.m y0 hc hk, cellPixels_getElem? s.m y0 c hk]
  rfl

/-- A cell's pixels come from its two video bytes and the flash phase. -/
theorem cellPixels_congr {m n : MachineState} {y0 c : Nat} (hphase : flashPhase m = flashPhase n)
    (hbmp : memRead m.mem (bmpAddr y0 c).toNat = memRead n.mem (bmpAddr y0 c).toNat)
    (hattr : memRead m.mem (attrAddr y0 c).toNat = memRead n.mem (attrAddr y0 c).toNat) :
    cellPixels m y0 c = cellPixels n y0 c := by
  rw [cellPixels, cellPixels, hphase, hbmp, hattr]

/-- A row comes from the border, the flash phase and, in the bitmap band, the row's video bytes. -/
theorem lineRow_congr {m n : MachineState} {y : Nat} (hborder : m.border = n.border)
    (hphase : flashPhase m = flashPhase n)
    (hvideo : 48 ≤ y → y < 240 → ∀ c < 32,
      memRead m.mem (bmpAddr (y - 48) c).toNat = memRead n.mem (bmpAddr (y - 48) c).toNat ∧
      memRead m.mem (attrAddr (y - 48) c).toNat = memRead n.mem (attrAddr (y - 48) c).toNat) :
    lineRow m y = lineRow n y := by
  have hpixel : borderPixel m = borderPixel n := by rw [borderPixel, borderPixel, hborder]
  unfold lineRow
  rw [hpixel]
  split
  · rfl
  next hband =>
    rw [inBorderBand_iff, not_or, not_lt, not_le] at hband
    have hcells : bitmapPixels m (y - bitmapTop) = bitmapPixels n (y - bitmapTop) :=
      List.flatMap_congr fun c hc => by
        obtain ⟨hbmp, hattr⟩ := hvideo hband.1 hband.2 c (List.mem_range.mp hc)
        exact cellPixels_congr hphase hbmp hattr
    rw [hcells]

/-- Settles O30: each buffer holds the row rendered from its record, and the two rows are drawn from the same things. -/
theorem lineOutputDependsOnlyOn : Obligations.LineOutputDependsOnlyOn := by
  intro s1 s2 t1 t2 y h1 h2 hbuf1 hbuf2 hborder hphase hvideo x hx
  rw [exec_line_buf_getElem? h1 hbuf1 hx, exec_line_buf_getElem? h2 hbuf2 hx, lineRow_congr hborder hphase hvideo]

end Sys2Proof.Machine
end

section
/-! SUPPORT. Proofs of the statements about FRAME (45_frame.md): its checks, its engine calls, what it leaves, and its
single steps. -/

namespace Sys2Proof.Machine

/-! ### A FRAME that does not run (R251, R252). -/

/-- FRAME between FRAMEs: the two checks in their order, then the frame. -/
theorem exec_frame_ready {s : State} (h : s.Ready) (b : List Byte) :
    exec (.frame b) s =
      if b.length < frameBytes then .next ((s.setBuf b).setResult (.count (frameBytes - b.length)))
      else if s.m.done then .next ((s.setBuf b).setResult (.count 0)) else runFrame (openFrame b s) :=
  onHost_ready h _

/-- Settles O39: both checks come before anything else the FRAME does, the length check first. -/
theorem frameThatDoesNotRun : Obligations.FrameThatDoesNotRun := by
  intro s b hready
  rw [exec_frame_ready hready]
  refine ⟨fun hshort => ?shortfall, fun hlong hdone => ?done⟩
  case shortfall => exact if_pos hshort
  case done => exact (if_neg (not_lt.mpr hlong)).trans (if_pos hdone)

/-! ### Engine calls (R253, R255, R256). -/

/-- Settles O40: the interrupt is one engine call, whose transactions change the record, and one event. -/
theorem vsyncRaisesOneInterrupt : Obligations.VsyncRaisesOneInterrupt := by
  intro s f hlive hframe
  show execVsync s = _
  rw [execVsync, inFrame_some hlive hframe, raiseFrameInterrupt_spec, (foldl_busEffect_keeps _ _).1, callBus_replies,
    nextCall_eq, List.drop_one]
  rfl

/-- Settles O41: EXEC is one engine call of n cycles, whatever n is, and one event. -/
theorem execUpdatesCarry : Obligations.ExecUpdatesCarry := by
  intro s f n hlive hframe
  show execExec n s = _
  rw [execExec, inFrame_some hlive hframe, executeCycles_spec, (foldl_busEffect_keeps _ _).1, callBus_replies,
    nextCall_eq, List.drop_one]
  rfl

/-- The operations look at the port's low byte as the decoder does. -/
theorem isUlaPort_eq_isUla (p : Nat) : isUlaPort p = isUla p :=
  Bool.eq_iff_iff.mpr ((isUlaPort_iff p).trans (isUla_iff p).symm)

/-- An engine transaction, as its row of the table and as an operation of a call, is one thing. -/
theorem exec_toInstr {s : State} (h : s.live = true) (op : BusOp) : exec op.toInstr s = .next (busOp op s) := by
  cases op with
  | mrd | mwr | setdone => exact onEngine_live h _
  | iord p =>
    rw [BusOp.toInstr, portRead, busOp, isUlaPort_eq_isUla]
    split <;> exact onEngine_live h _
  | iowr p v =>
    rw [BusOp.toInstr, portWrite, busOp, isUlaPort_eq_isUla]
    split <;> exact onEngine_live h _

theorem busOp_live (op : BusOp) (s : State) : (busOp op s).live = s.live := by
  obtain ⟨r, h⟩ := busOp_spec op s
  rw [h]
  rfl

/-- The transactions of a call, each run as its row on the state the one before left. -/
theorem foldl_exec_toInstr (ops : List BusOp) {s : State} (h : s.live = true) :
    ops.foldl (fun o op => andThen o (exec op.toInstr)) (.next s) = .next (runBus ops s).1 := by
  induction ops generalizing s with
  | nil => rfl
  | cons op ops ih =>
    rw [List.foldl_cons, andThen_next, exec_toInstr h, ih ((busOp_live op s).trans h)]
    rfl

/-- Settles O42: one transaction by `exec_toInstr`, any number by induction, the replies by `runBus`'s own recursion. -/
theorem engineTransactionsRunAsTheirRows : Obligations.EngineTransactionsRunAsTheirRows :=
  fun _ hlive => ⟨exec_toInstr hlive, fun ops => foldl_exec_toInstr ops hlive, fun _ _ => rfl⟩

/-! ### A FRAME that runs (R257 to R259). -/

/-- The state FRAME answers is the end of 312 scanlines after the interrupt. -/
theorem exec_frame_scanned {s t : State} {b : List Byte} (hready : s.Ready) (hdone : s.m.done = false)
    (hb : 109824 ≤ b.length) (h : exec (.frame b) s = .next t) :
    ∃ u es, t = closeFrame u ∧
      Scanned (afterInterrupt b s) u { stage := .exec, y := 0, carry := carryBefore s 0 } 312 es := by
  obtain ⟨u, es, hu, S⟩ := execFrame_spec hready hb hdone
  exact ⟨u, es, Host.Outcome.next.inj (h.symm.trans hu), S⟩

/-- The engine operations of a frame, on top of what came before it. -/
theorem scanned_cpu {s u : State} {b : List Byte} {es : List CpuEvent}
    (S : Scanned (afterInterrupt b s) u { stage := .exec, y := 0, carry := carryBefore s 0 } 312 es) :
    (closeFrame u).m.cpu =
      es ++ .interrupt s.cfg.irqModeArg (callBus (openFrame b s)).2 (upcoming s 0).used :: s.m.cpu :=
  congrArg MachineState.cpu S.record

/-- The Execute call of scanline y among the operations of a frame, newest first. -/
theorem scanned_execute {s u : State} {b : List Byte} {es : List CpuEvent}
    (S : Scanned (afterInterrupt b s) u { stage := .exec, y := 0, carry := carryBefore s 0 } 312 es) {y : Nat}
    (hy : y < 312) :
    ∃ r, es[311 - y]? = some (.execute (224 - carryBefore s y) r (upcoming s (y + 1)).used) := by
  obtain ⟨r, hr⟩ := S.protocol y hy
  rw [carriesFrom_afterInterrupt, upcoming_afterInterrupt] at hr
  exact ⟨r, hr⟩

/-- Settles O43: `execFrame_spec` runs the frame with no condition on the engine; the fields it leaves are those of
`closeFrame_eq` and `closeFrame_m`, and every row lies below 109824. -/
theorem frameRunsToCompletion : Obligations.FrameRunsToCompletion := by
  intro s b hready hdone hb
  obtain ⟨u, es, hu, S⟩ := execFrame_spec hready hb hdone
  refine ⟨closeFrame u, hu, ?only, ?record, ?kb, S.length, ?tail⟩
  case only =>
    obtain ⟨-, hframe⟩ := hready
    rw [hframe]
    exact closeFrame_eq S
  case record => exact closeFrame_m S
  case kb =>
    rw [closeFrame_m S]
    exact (machineAfterCalls_keeps s 313).2.1
  case tail =>
    refine List.ext_getElem? fun i => ?_
    rw [List.getElem?_drop, List.getElem?_drop]
    exact S.others (109824 + i) (.inr (by simp only; omega))

/-- Settles O44: a row stays as its own scanline drew it, from the record after that scanline's Execute call; the CPU
state in that record is not seen. -/
theorem frameRasterOrder : Obligations.FrameRasterOrder := by
  intro s t b hready hdone hb h y hy
  obtain ⟨u, es, rfl, S⟩ := exec_frame_scanned hready hdone hb h
  refine List.ext_getElem? fun x => ?_
  by_cases hx : x < 352
  · have hrow := S.rows y hy x hx
    rw [machineAfterCalls_afterInterrupt, lineRow_cpu, Nat.zero_add] at hrow
    rw [List.getElem?_take_of_lt hx, List.getElem?_drop]
    exact hrow
  · rw [List.getElem?_eq_none (by rw [List.length_take]; omega), List.getElem?_eq_none (by rw [length_lineRow]; omega)]

/-- Settles O45: the record's CPU state after the 312 scanlines, whose Execute calls and carries `Scanned` gives. -/
theorem frameEngineProtocol : Obligations.FrameEngineProtocol := by
  intro s t b hready hdone hb h
  obtain ⟨u, es, rfl, S⟩ := exec_frame_scanned hready hdone hb h
  exact ⟨es, _, scanned_cpu S, S.executes.1, fun y => scanned_execute S⟩

/-- Settles O47: over the scanlines the cycles used sum up to the cycles asked for and the change of the carry, and the
last carry is what scanline 311 used over its request. -/
theorem cyclesOfAFrameAddUp : Obligations.CyclesOfAFrameAddUp := by
  intro s t b hready hdone hb h
  obtain ⟨u, es, rfl, S⟩ := exec_frame_scanned hready hdone hb h
  obtain ⟨r, hlast⟩ := scanned_execute S (y := 311) (by decide)
  have hlength : es.length = 312 := S.executes.1
  have hcycles : (es.map executeUsed).sum = 224 * 312 - carryBefore s 0 + carryBefore s 312 := by
    rw [S.cycles, carriesFrom_afterInterrupt]
    rfl
  have hcarry : carryBefore s 312 = ((upcoming s 312).used : Int) - (224 - carryBefore s 311) := rfl
  refine ⟨224 - carryBefore s 311, r, (upcoming s 312).used, ?_, ?_⟩
  · rw [scanned_cpu S, List.head?_eq_getElem?, List.getElem?_append_left (by omega)]
    exact hlast
  · rw [scanned_cpu S, List.take_left' hlength, hcycles, hcarry]
    omega

/-! ### A FRAME step by step (R306). -/

/-- Inside a FRAME with a scanline left, the step at stage EXEC is the Execute call of the sequencer's request. -/
theorem step_exec_stage {s : State} {f : Frame} (hlive : s.live = true) (hframe : s.frame = some f)
    (hstage : f.stage = .exec) (hy : f.y ≤ 311) : step s = .next (executeCycles (request f) f s) := by
  rw [step_in_frame hframe, sequencerStep, hstage]
  show (if f.y < frameH then _ else _) = _
  rw [if_pos (Nat.lt_succ_of_le hy), execExec, inFrame_some hlive hframe]

theorem step_line_stage {s : State} {f : Frame} (hlive : s.live = true) (hframe : s.frame = some f)
    (hstage : f.stage = .line) (hy : f.y ≤ 311) : step s = .next (renderLine f.y f s) := by
  rw [step_in_frame hframe, sequencerStep, hstage]
  exact execLine_next hlive hframe hy

/-- The Execute call and then the line, as one scanline. -/
theorem renderLine_executeCycles {s : State} (f g : Frame) (hg : g.y = f.y)
    (hcarry : g.carry = ((nextCall s).used : Int) - request f) :
    renderLine g.y g (executeCycles (request f) f s) = oneScanline f s := by
  obtain ⟨stage, y, carry⟩ := g
  subst hg hcarry
  rw [executeCycles_spec, (foldl_busEffect_keeps _ _).1, nextCall_eq]
  rfl

/-- Two steps of the machine are one scanline. -/
theorem run_oneScanline (n : Nat) {s : State} {f : Frame} (hlive : s.live = true) (hframe : s.frame = some f)
    (hstage : f.stage = .exec) (hy : f.y ≤ 311) :
    Host.Core.run Sys2Proof.core (n + 2) s = Host.Core.run Sys2Proof.core n (oneScanline f s) := by
  have hlive' : (executeCycles (request f) f s).live = true := by
    rw [executeCycles_spec]
    exact hlive
  have hline : step (executeCycles (request f) f s) = .next (oneScanline f s) :=
    (step_line_stage hlive' rfl rfl hy).trans (congrArg _ (renderLine_executeCycles f _ rfl rfl))
  rw [run_succ_next (n + 1) (step_exec_stage hlive hframe hstage hy), run_succ_next n hline]

/-- Twice k steps are k scanlines, as long as there are that many left. -/
theorem run_scanlines (k n : Nat) {s t : State} {f : Frame} (hlive : s.live = true) (hframe : s.frame = some f)
    (hstage : f.stage = .exec) (hy : f.y + k ≤ 312) (h : scanlines k s = .next t) :
    Host.Core.run Sys2Proof.core (n + 2 * k) s = Host.Core.run Sys2Proof.core n t := by
  induction k generalizing s f with
  | zero => cases h; rfl
  | succ k ih =>
    rw [scanlines_succ k hlive hframe (by omega)] at h
    rw [show n + 2 * (k + 1) = n + 2 * k + 2 by omega, run_oneScanline _ hlive hframe hstage (by omega)]
    exact ih (s := oneScanline f s) hlive rfl rfl (by simp only; omega) h

/-- The step after scanline 311 ends the frame. -/
theorem step_frame_end {s : State} {f : Frame} (hframe : s.frame = some f) (hstage : f.stage = .exec)
    (hy : 312 ≤ f.y) : step s = .next (closeFrame s) := by
  rw [step_in_frame hframe, sequencerStep, hstage]
  exact if_neg (Nat.not_lt.mpr hy)

/-- Settles O48: the interrupt is one step, the 312 scanlines are 624, and the end of the frame is one. -/
theorem singleStepsRunTheFrame : Obligations.SingleStepsRunTheFrame := by
  intro s b hready hdone hb
  obtain ⟨u, es, hlines, S⟩ := scanlines_spec 312 (s := afterInterrupt b s)
    (f := { stage := .exec, y := 0, carry := carryBefore s 0 }) hready.1 rfl rfl (by simp) hb
  have hvsync : step (openFrame b s) = .next (afterInterrupt b s) := execVsync_open b hready
  have hend : step u = .next (closeFrame u) := step_frame_end S.stage rfl le_rfl
  have hexec : exec (.frame b) s = .next (closeFrame u) := by
    rw [exec_frame_ready hready, if_neg (not_lt.mpr hb), if_neg (ne_true_of_eq_false hdone), runFrame,
      execVsync_open b hready, andThen_next, hlines, andThen_next]
  rw [hexec, show 626 = 1 + 2 * 312 + 1 from rfl, run_succ_next _ hvsync,
    run_scanlines 312 1 (s := afterInterrupt b s) hready.1 rfl rfl le_rfl hlines, run_succ_next 0 hend]
  rfl

end Sys2Proof.Machine
end

section
/-! SUPPORT. Proofs of the statements about the snapshot's streams (44_snapshot.md sections 4 and 5): the RLE decoder
and the block walk. -/

namespace Sys2Proof.Machine

/-! ### The RLE decoder (R219). -/

/-- TERM ends a classic stream. -/
theorem rle_term (r : List Byte) : rle true (0x00 :: 0xED :: 0xED :: 0x00 :: r) = some [] := by
  rw [rle]
  exact if_pos rfl

/-- RUN expands. -/
theorem rle_run (classic : Bool) (n v : Byte) (r : List Byte) :
    rle classic (0xED :: 0xED :: n :: v :: r) = (rle classic r).map (List.replicate n.toNat v ++ ·) := by
  cases classic <;> rw [rle] <;> rfl

/-- LIT passes through: a byte that starts neither TERM nor RUN. -/
theorem rle_lit {classic : Bool} {b : Byte} {r : List Byte}
    (hterm : classic = true → b = 0x00 → r.take 3 ≠ [0xED, 0xED, 0x00]) (hrun : b = 0xED → r.take 1 ≠ [0xED]) :
    rle classic (b :: r) = (rle classic r).map (b :: ·) := by
  have hterm' : ¬(classic && b == 0x00#8 && r.take 3 == [0xED#8, 0xED#8, 0x00#8]) = true := by
    simpa using hterm
  have hrun' : ¬(b == 0xED#8 && r.take 1 == [0xED#8]) = true := by
    simpa using hrun
  rw [rle.eq_def]
  simp only [if_neg hterm', if_neg hrun']

/-- Settles O37: TERM and RUN by their tests, a cut-off RUN by RUN's own match, and every other byte by `rle_lit`. -/
theorem rleFormsDecode : Obligations.RleFormsDecode := by
  refine ⟨fun c => rfl, rle_term, fun r => ?zeroExtended, rle_run, fun c => ?cutTwo, fun c n => ?cutThree,
    fun c b r hed hzero => ?other, fun c b r hb => ?loneEd, fun c => ?lastEd, fun r hr => ?zeroClassic⟩
  case zeroExtended => exact rle_lit nofun (fun h => absurd h (by decide))
  case cutTwo => cases c <;> rfl
  case cutThree => cases c <;> rfl
  case other => exact rle_lit (fun _ hb => absurd hb hzero) (fun hb => absurd hb hed)
  case loneEd => exact rle_lit (fun _ h => absurd h (by decide)) (fun _ h => hb (by simpa using h))
  case lastEd => cases c <;> rfl
  case zeroClassic => exact rle_lit (fun _ _ => hr) (fun h => absurd h (by decide))

/-! ### The standard layout's 16-bit fields (R54, R97). -/

theorem toNat_word (hi lo : Byte) : (hi ++ lo : Word).toNat = lo.toNat + 256 * hi.toNat := by
  have h : (hi ++ lo : Word).toNat = hi.toNat * 2 ^ 8 + lo.toNat := toNat_append_eq_add hi lo
  omega

theorem word_eq_zero_iff (hi lo : Byte) : (hi ++ lo : Word) = 0 ↔ lo = 0 ∧ hi = 0 := by
  rw [← BitVec.toNat_inj, ← BitVec.toNat_inj, ← BitVec.toNat_inj, toNat_word]
  simp

/-! ### One block's data (R212 (d)). -/

theorem blockData_raw {body rest : List Byte} (h : body.length = 16384) :
    blockData 0xFFFF#16 (body ++ rest) = some (body, rest) := by
  rw [blockData, if_pos rfl, if_pos (by simp [h]), List.take_left' h, List.drop_left' h]

theorem blockData_raw_short {body : List Byte} (h : body.length < 16384) : blockData 0xFFFF#16 body = none := by
  rw [blockData, if_pos rfl, if_neg (not_le.mpr h)]

theorem blockData_compressed {len : Word} {body rest : List Byte} (hlen : len ≠ 0xFFFF#16)
    (h : body.length = len.toNat) :
    blockData len (body ++ rest) = (rleUpTo false snapPageBytes body).map fun out => (out, rest) := by
  rw [blockData, if_neg hlen, if_pos (by simp [h]), List.take_left' h, List.drop_left' h]

theorem blockData_compressed_short {len : Word} {body : List Byte} (hlen : len ≠ 0xFFFF#16)
    (h : body.length < len.toNat) :
    blockData len body = none := by
  rw [blockData, if_neg hlen, if_neg (not_le.mpr h)]

/-- A block's data fit a page, and what follows is no longer than what was there. -/
theorem blockData_eq_some {len : Word} {rest : List Byte} {d : List Byte × List Byte}
    (h : blockData len rest = some d) :
    d.1.length ≤ 16384 ∧ d.2.length ≤ rest.length := by
  unfold blockData at h
  split_ifs at h
  · cases h
    simp
  · obtain ⟨out, hout, rfl⟩ := Option.map_eq_some_iff.mp h
    exact ⟨(rleUpTo_length hout).2, by simp⟩

/-! ### The block walk (R221). -/

theorem pageBlocks_nil (l : SnapLayout) (fuel : Nat) : pageBlocks l fuel [] = some [] := by
  cases fuel <;> rfl

theorem pageBlocks_of_short {l : SnapLayout} {src : List Byte} (hne : src ≠ []) (hlt : src.length < 3) (fuel : Nat) :
    pageBlocks l fuel src = none := by
  match src with
  | [] => exact absurd rfl hne
  | [_] | [_, _] => cases fuel <;> rfl
  | _ :: _ :: _ :: rest => simp only [List.length_cons] at hlt; omega

/-- One step of the walk under the standard layout. -/
theorem pageBlocks_succ (fuel : Nat) (l0 l1 page : Byte) (rest : List Byte) :
    pageBlocks .standard (fuel + 1) (l0 :: l1 :: page :: rest) =
      (blockData (l1 ++ l0) rest).bind fun d =>
        (pageBlocks .standard fuel d.2).map ({ page := page, data := d.1 } :: ·) := rfl

theorem pageBlocks_of_blockData_none {l0 l1 page : Byte} {rest : List Byte} (h : blockData (l1 ++ l0) rest = none)
    (fuel : Nat) : pageBlocks .standard fuel (l0 :: l1 :: page :: rest) = none := by
  cases fuel with
  | zero => rfl
  | succ fuel => rw [pageBlocks_succ, h, Option.bind_none]

/-- Fuel of the stream's length is enough: any two such amounts walk alike. -/
theorem pageBlocks_fuel {fuel fuel' : Nat} {src : List Byte} (h : src.length ≤ fuel) (h' : src.length ≤ fuel') :
    pageBlocks .standard fuel src = pageBlocks .standard fuel' src := by
  induction fuel generalizing fuel' src with
  | zero =>
    obtain rfl : src = [] := List.length_eq_zero_iff.mp (Nat.le_zero.mp h)
    rw [pageBlocks_nil, pageBlocks_nil]
  | succ fuel ih =>
    match src with
    | [] => rw [pageBlocks_nil, pageBlocks_nil]
    | [_] | [_, _] => rw [pageBlocks_of_short (by simp) (by simp), pageBlocks_of_short (by simp) (by simp)]
    | l0 :: l1 :: page :: rest =>
      obtain ⟨fuel', rfl⟩ : ∃ n, fuel' = n + 1 := Nat.exists_eq_succ_of_ne_zero (by rintro rfl; simp at h')
      rw [pageBlocks_succ, pageBlocks_succ]
      refine Option.bind_congr fun d hd => ?_
      have hd := (blockData_eq_some hd).2
      simp only [List.length_cons] at h h'
      rw [ih (fuel' := fuel') (by omega) (by omega)]

/-- Every block of a walk holds at most a page. -/
theorem length_le_of_mem_pageBlocks {fuel : Nat} {src : List Byte} {bs : List PageBlock}
    (h : pageBlocks .standard fuel src = some bs) : ∀ b ∈ bs, b.data.length ≤ 16384 := by
  induction fuel generalizing src bs with
  | zero =>
    match src with
    | [] => cases h; nofun
    | [_] | [_, _] | _ :: _ :: _ :: _ => cases h
  | succ fuel ih =>
    match src with
    | [] => cases h; nofun
    | [_] | [_, _] => cases h
    | l0 :: l1 :: page :: rest =>
      rw [pageBlocks_succ] at h
      obtain ⟨d, hd, h⟩ := Option.bind_eq_some_iff.mp h
      obtain ⟨bs', hbs', rfl⟩ := Option.map_eq_some_iff.mp h
      exact List.forall_mem_cons.mpr ⟨(blockData_eq_some hd).1, ih hbs'⟩

end Sys2Proof.Machine
end

section
/-! SUPPORT. Proofs of the statements about LOAD (44_snapshot.md): which images it takes, and the record each kind of
image leaves. -/

namespace Sys2Proof.Machine

/-! ### LOAD as the parse of its image (R210). -/

/-- LOAD of an image that parses: memory from the pieces over zeros, border and CPU state from the image, every other
field reset (R211, R222, R223). -/
theorem exec_load_of_parseImage {s : State} {b : List Byte} {img : Image} (hready : s.Ready)
    (h : parseImage s.cfg b = some img) :
    exec (.load b) s = .next
      { s with
        m := { cpu := [.setRegisters img.header img.pc img.rBit7 img.ext, .reset], mem := writePieces [] img.pieces,
               kb := Vector.replicate 8 0xFF, border := img.border, ear := false, frameCounter := 0, done := false },
        result := .none } := by
  refine (onHost_ready hready _).trans ?_
  rw [h]
  rfl

theorem exec_load_of_malformed {s : State} {b : List Byte} (hready : s.Ready) (h : parseImage s.cfg b = none) :
    exec (.load b) s = .refused .malformedSnapshot := by
  refine (onHost_ready hready _).trans ?_
  rw [h]

/-- Settles O38: the image is parsed from the bytes and the parameters, and the record comes from the image alone. -/
theorem loadReplacesWholeRecord : Obligations.LoadReplacesWholeRecord := by
  intro s1 s2 t1 b hready1 hready2 hcfg h1
  cases himg : parseImage s1.cfg b with
  | none => cases (exec_load_of_malformed hready1 himg).symm.trans h1
  | some img =>
    obtain rfl := Host.Outcome.next.inj ((exec_load_of_parseImage hready1 himg).symm.trans h1)
    exact ⟨_, exec_load_of_parseImage hready2 (hcfg ▸ himg), rfl⟩

/-! ### The two kinds of image under the standard layout (R212, R213). -/

theorem parseImage_short (cfg : Config) {b : List Byte} (h : b.length < 30) : parseImage cfg b = none := if_pos h

theorem parseImage_classic {cfg : Config} (hlayout : cfg.layout = .standard) {b : List Byte} (hlength : 30 ≤ b.length)
    (hpc : ¬(byteAt b 6 = 0 ∧ byteAt b 7 = 0)) :
    parseImage cfg b = (classicData ((flagByte b).getLsbD 5) (b.drop 30)).map fun d =>
      imageOf .standard b (byteAt b 7 ++ byteAt b 6) [] [(0x4000, d)] := by
  have hpc' : (byteAt b 7 ++ byteAt b 6 : Word) ≠ 0 := mt (word_eq_zero_iff _ _).mp hpc
  rw [parseImage, if_neg (not_lt.mpr hlength), hlayout]
  exact if_pos hpc'

theorem parseImage_extended {cfg : Config} (hlayout : cfg.layout = .standard) {b : List Byte} (hlength : 30 ≤ b.length)
    (hpc : byteAt b 6 = 0 ∧ byteAt b 7 = 0) : parseImage cfg b = parseExtended cfg.unknownPage .standard b := by
  have hpc' : (byteAt b 7 ++ byteAt b 6 : Word) = 0 := (word_eq_zero_iff _ _).mpr hpc
  rw [parseImage, if_neg (not_lt.mpr hlength), hlayout]
  exact if_neg (not_not_intro hpc')

theorem classicData_raw {payload : List Byte} :
    classicData false payload = if payload.length = 49152 then some payload else none := rfl

/-- A compressed payload gives its expansion, if that fits below 0x10000. -/
theorem classicData_compressed_eq_some {payload out : List Byte} :
    classicData true payload = some out ↔ rle true payload = some out ∧ out.length ≤ 49152 := by
  simp [classicData, rleUpTo, Option.filter_eq_some_iff]

/-- The extension header's length under the standard layout. -/
theorem extLen_standard (b : List Byte) :
    extLen .standard b = (byteAt b 30).toNat + 256 * (byteAt b 31).toNat := toNat_word (byteAt b 31) (byteAt b 30)

/-- The bounds of an extended image, as numbers, and what it gives within them (R212 (d)). -/
theorem parseExtended_standard (policy : PagePolicy) (b : List Byte) :
    parseExtended policy .standard b =
      if 32 ≤ b.length ∧ 2 ≤ extLen .standard b ∧ 32 + extLen .standard b ≤ b.length then
        (pageBlocks .standard b.length (b.drop (32 + extLen .standard b))).map fun bs =>
          imageOf .standard b (byteAt b 33 ++ byteAt b 32) ((b.drop 32).take (extLen .standard b)) (piecesOf policy bs)
      else none := by
  have hpc : 34 ≤ 32 + extLen .standard b ↔ 2 ≤ extLen .standard b := by omega
  unfold parseExtended
  exact if_congr (and_congr_right' (and_congr_left' hpc)) rfl rfl

/-- Which extended images are well formed. -/
theorem parseExtended_isSome_iff (policy : PagePolicy) (b : List Byte) :
    (parseExtended policy .standard b).isSome = true ↔
      32 ≤ b.length ∧ 2 ≤ extLen .standard b ∧ 32 + extLen .standard b ≤ b.length ∧
        (pageBlocks .standard b.length (b.drop (32 + extLen .standard b))).isSome = true := by
  rw [parseExtended_standard]
  split
  next h => rw [Option.isSome_map, and_iff_right h.1, and_iff_right h.2.1, and_iff_right h.2.2]
  next h => exact ⟨nofun, fun ⟨h1, h2, h3, _⟩ => absurd ⟨h1, h2, h3⟩ h⟩

/-- Which classic payloads are well formed. -/
theorem classicData_isSome_iff (compressed : Bool) (payload : List Byte) :
    (classicData compressed payload).isSome = true ↔
      (compressed = false → payload.length = 49152) ∧
        (compressed = true → ∃ out, rle true payload = some out ∧ out.length ≤ 49152) := by
  cases compressed with
  | false => simp [classicData_raw]
  | true => simp [Option.isSome_iff_exists, classicData_compressed_eq_some]

/-- Settles O31: LOAD goes on where the parse does, which looks at the length, then at the PC, then at the payload or
the blocks. -/
theorem loadRunsExactlyOnWellFormedImages : Obligations.LoadRunsExactlyOnWellFormedImages := by
  intro s b hready hlayout n pc f12 e wellFormed
  have hpc : pc = 0 ↔ byteAt b 6 = 0 ∧ byteAt b 7 = 0 := by
    rw [← word_eq_zero_iff, ← BitVec.toNat_inj, toNat_word]
    rfl
  have hparse : (parseImage s.cfg b).isSome = true ↔ wellFormed := by
    by_cases hlength : 30 ≤ b.length
    case neg =>
      rw [parseImage_short _ (not_le.mp hlength)]
      exact iff_of_false nofun fun hwf => hlength hwf.1
    by_cases hzero : pc = 0
    case pos =>
      rw [parseImage_extended hlayout hlength (hpc.mp hzero), parseExtended_isSome_iff, extLen_standard]
      exact ⟨fun hblocks => ⟨hlength, fun hne => absurd hzero hne, fun hne => absurd hzero hne, fun _ => hblocks⟩,
        fun ⟨_, _, _, hblocks⟩ => hblocks hzero⟩
    case neg =>
      rw [parseImage_classic hlayout hlength (mt hpc.mpr hzero), Option.isSome_map, classicData_isSome_iff,
        List.length_drop]
      exact ⟨fun ⟨hraw, hrle⟩ => ⟨hlength, fun _ => hraw, fun _ => hrle, fun h => absurd h hzero⟩,
        fun ⟨_, hraw, hrle, _⟩ => ⟨hraw hzero, hrle hzero⟩⟩
  refine ⟨fun hwf => ?runs, fun hbad => ?refused⟩
  case runs =>
    obtain ⟨img, himg⟩ := Option.isSome_iff_exists.mp (hparse.mpr hwf)
    exact ⟨_, exec_load_of_parseImage hready himg⟩
  case refused =>
    exact exec_load_of_malformed hready (Option.not_isSome_iff_eq_none.mp (mt hparse.mp hbad))

/-! ### Runs of bytes over zeros (R217, R221). -/

/-- A run of bytes covers an address. -/
def pieceCovers (p : Nat × List Byte) (x : Nat) : Prop := p.1 ≤ x ∧ x < p.1 + p.2.length

/-- One run of bytes over zeros. -/
theorem memRead_single_piece {a x : Nat} {d : List Byte} (hfit : a + d.length ≤ 65536) (hx : x < 65536) :
    memRead (writePieces [] [(a, d)]) x = if a ≤ x ∧ x < a + d.length then byteAt d (x - a) else 0 :=
  memRead_memWriteBytes rfl a d hfit hx

/-- Runs that do not cover an address leave it. -/
theorem memRead_writePieces_of_not_covered {m : Memory} (hm : m.wf = true) {ps : List (Nat × List Byte)}
    (hfit : ∀ p ∈ ps, p.1 + p.2.length ≤ 65536) {x : Nat} (hx : x < 65536) (h : ∀ p ∈ ps, ¬pieceCovers p x) :
    memRead (writePieces m ps) x = memRead m x := by
  induction ps generalizing m with
  | nil => rfl
  | cons p ps ih =>
    rw [List.forall_mem_cons] at hfit h
    have hp := memRead_memWriteBytes hm p.1 p.2 hfit.1 hx
    exact (ih (memWriteBytes_wf hm p.1 p.2) hfit.2 h.2).trans (hp.trans (if_neg h.1))

/-- The last run that covers an address gives its byte. -/
theorem memRead_writePieces_of_last {m : Memory} (hm : m.wf = true) {pre post : List (Nat × List Byte)}
    {p : Nat × List Byte} (hfit : ∀ q ∈ p :: post, q.1 + q.2.length ≤ 65536) {x : Nat} (hx : x < 65536)
    (hp : pieceCovers p x) (hpost : ∀ q ∈ post, ¬pieceCovers q x) :
    memRead (writePieces m (pre ++ p :: post)) x = byteAt p.2 (x - p.1) := by
  rw [List.forall_mem_cons] at hfit
  have hpre : (writePieces m pre).wf = true := writePieces_wf hm pre
  have hsplit : writePieces m (pre ++ p :: post) = writePieces (memWriteBytes (writePieces m pre) p.1 p.2) post := by
    simp [writePieces]
  rw [hsplit, memRead_writePieces_of_not_covered (memWriteBytes_wf hpre p.1 p.2) hfit.2 hx hpost,
    memRead_memWriteBytes hpre p.1 p.2 hfit.1 hx]
  exact if_pos hp

/-! ### Classic images (R217, R218). -/

/-- A classic image whose payload gives the data d: the whole record, d in memory from 0x4000 up. -/
theorem exec_load_classic {s : State} {b d : List Byte} (hready : s.Ready) (hlayout : s.cfg.layout = .standard)
    (hlength : 30 ≤ b.length) (hpc : ¬(byteAt b 6 = 0 ∧ byteAt b 7 = 0))
    (hd : classicData ((flagByte b).getLsbD 5) (b.drop 30) = some d) :
    exec (.load b) s = .next
      { s with
        m := { cpu := [.setRegisters (b.take 30) (byteAt b 7 ++ byteAt b 6) ((flagByte b).getLsbD 0) [], .reset],
               mem := writePieces [] [(0x4000, d)], kb := Vector.replicate 8 0xFF,
               border := (flagByte b).extractLsb' 1 3, ear := false, frameCounter := 0, done := false },
        result := .none } := by
  have himg := parseImage_classic hlayout hlength hpc
  rw [hd, Option.map_some] at himg
  exact exec_load_of_parseImage hready himg

/-- Data loaded from 0x4000 up read back there; below are zeros, and above the data too. -/
theorem memRead_classic {d : List Byte} (hd : d.length ≤ 49152) {x : Nat} (hx : x < 65536) :
    memRead (writePieces [] [(0x4000, d)]) x = if x < 0x4000 then 0 else byteAt d (x - 0x4000) := by
  rw [memRead_single_piece (by omega) hx]
  split_ifs with h1 h2 h2
  · omega
  · rfl
  · rfl
  · exact (congrArg (Option.getD · 0) (List.getElem?_eq_none (by omega))).symm

/-- Settles O32: a raw payload of 49152 bytes is its own data. -/
theorem classicRawImageLoads : Obligations.ClassicRawImageLoads := by
  intro s b hready hlayout hlength hpc hraw
  have hpayload : (b.drop 30).length = 49152 := by
    rw [List.length_drop]
    omega
  have hd : classicData ((flagByte b).getLsbD 5) (b.drop 30) = some (b.drop 30) := by
    rw [hraw, classicData_raw, if_pos hpayload]
  refine ⟨_, exec_load_classic hready hlayout (by omega) hpc hd, rfl, fun a ha => ?memory⟩
  case memory =>
    refine (memRead_classic hpayload.le ha).trans ?_
    rw [byteAt, List.getElem?_drop, Nat.add_comm, ← byteAt]

/-- Settles O33: a compressed payload's data is its expansion. -/
theorem classicCompressedImageLoads : Obligations.ClassicCompressedImageLoads := by
  intro s b out hready hlayout hlength hpc hcompressed hrle hout
  have hd : classicData ((flagByte b).getLsbD 5) (b.drop 30) = some out := by
    rw [hcompressed]
    exact classicData_compressed_eq_some.mpr ⟨hrle, hout⟩
  exact ⟨_, exec_load_classic hready hlayout hlength hpc hd, rfl, fun a ha => memRead_classic hout ha⟩

end Sys2Proof.Machine
end

section
/-! SUPPORT. Proofs of the statements about extended images (44_snapshot.md section 5): where the pages load, and the
order of the blocks. -/

namespace Sys2Proof.Machine

/-! ### The parts of an extended image (R221). -/

theorem byteAt_append_left {l r : List Byte} {i : Nat} (h : i < l.length) : byteAt (l ++ r) i = byteAt l i := by
  rw [byteAt, List.getElem?_append_left h, byteAt]

theorem byteAt_append_right {l r : List Byte} {i : Nat} (h : l.length ≤ i) :
    byteAt (l ++ r) i = byteAt r (i - l.length) := by
  rw [byteAt, List.getElem?_append_right h, byteAt]

/-- The image made of a header, the length of the extension header, the extension header and the blocks. -/
def extendedImage (hdr : List Byte) (e0 e1 : Byte) (ext src : List Byte) : List Byte := hdr ++ [e0, e1] ++ ext ++ src

section
variable {hdr ext src : List Byte} {e0 e1 : Byte} (hhdr : hdr.length = 30)
include hhdr

theorem extendedImage_length : (extendedImage hdr e0 e1 ext src).length = 32 + ext.length + src.length := by
  simp only [extendedImage, List.length_append, List.length_cons, List.length_nil, hhdr]

theorem byteAt_extendedImage_hdr {i : Nat} (hi : i < 30) :
    byteAt (extendedImage hdr e0 e1 ext src) i = byteAt hdr i := by
  rw [extendedImage, List.append_assoc, List.append_assoc, byteAt_append_left (by omega)]

theorem drop_extendedImage : (extendedImage hdr e0 e1 ext src).drop 32 = ext ++ src := by
  rw [extendedImage, List.append_assoc, List.drop_left' (by simp [hhdr])]

theorem byteAt_extendedImage_ext {i : Nat} (hi : i < ext.length) :
    byteAt (extendedImage hdr e0 e1 ext src) (32 + i) = byteAt ext i := by
  rw [byteAt, ← List.getElem?_drop, drop_extendedImage hhdr, ← byteAt, byteAt_append_left hi]

theorem extLen_extendedImage (hext : ext.length = e0.toNat + 256 * e1.toNat) :
    extLen .standard (extendedImage hdr e0 e1 ext src) = ext.length := by
  have hbyte : ∀ i < 2, byteAt (extendedImage hdr e0 e1 ext src) (30 + i) = byteAt [e0, e1] i := by
    intro i hi
    rw [extendedImage, List.append_assoc, List.append_assoc, byteAt_append_right (by omega), hhdr,
      Nat.add_sub_cancel_left, byteAt_append_left hi]
  rw [extLen_standard, hext, hbyte 0 (by decide), hbyte 1 (by decide)]
  rfl

/-- Byte 12 is in the header. -/
theorem flagByte_extendedImage : flagByte (extendedImage hdr e0 e1 ext src) = flagByte hdr := by
  rw [flagByte, byteAt_extendedImage_hdr hhdr (by decide), ← flagByte]

/-- The image parses to the pieces of its blocks, if the blocks are well formed. -/
theorem parseImage_extendedImage {cfg : Config} {bs : List PageBlock} (hlayout : cfg.layout = .standard)
    (h6 : byteAt hdr 6 = 0) (h7 : byteAt hdr 7 = 0) (hext : ext.length = e0.toNat + 256 * e1.toNat)
    (hpc : 2 ≤ ext.length) (hblocks : pageBlocks .standard src.length src = some bs) :
    parseImage cfg (extendedImage hdr e0 e1 ext src) = some
      { pieces := piecesOf cfg.unknownPage bs, border := (flagByte hdr).extractLsb' 1 3, header := hdr,
        pc := byteAt ext 1 ++ byteAt ext 0, rBit7 := (flagByte hdr).getLsbD 0, ext := ext } := by
  have hlength := extendedImage_length (ext := ext) (src := src) (e0 := e0) (e1 := e1) hhdr
  have hzero : byteAt (extendedImage hdr e0 e1 ext src) 6 = 0 ∧ byteAt (extendedImage hdr e0 e1 ext src) 7 = 0 := by
    rw [byteAt_extendedImage_hdr hhdr (by decide), byteAt_extendedImage_hdr hhdr (by decide)]
    exact ⟨h6, h7⟩
  have hheader : (extendedImage hdr e0 e1 ext src).take 30 = hdr := by
    rw [extendedImage, List.append_assoc, List.append_assoc, List.take_left' hhdr]
  rw [parseImage_extended hlayout (by omega) hzero, parseExtended_standard, extLen_extendedImage hhdr hext,
    if_pos ⟨by omega, hpc, by omega⟩, ← List.drop_drop, drop_extendedImage hhdr, List.drop_left, List.take_left,
    pageBlocks_fuel (by omega) le_rfl, hblocks, Option.map_some, imageOf, flagByte_extendedImage hhdr, hheader,
    byteAt_extendedImage_ext hhdr (i := 1) (by omega), byteAt_extendedImage_ext hhdr (i := 0) (by omega)]
  rfl

/-- The record after the load of an extended image: memory from its blocks over zeros. -/
theorem exec_load_extendedImage {s : State} {bs : List PageBlock} (hready : s.Ready)
    (hlayout : s.cfg.layout = .standard)
    (h6 : byteAt hdr 6 = 0) (h7 : byteAt hdr 7 = 0) (hext : ext.length = e0.toNat + 256 * e1.toNat)
    (hpc : 2 ≤ ext.length) (hblocks : pageBlocks .standard src.length src = some bs) :
    exec (.load (extendedImage hdr e0 e1 ext src)) s = .next
      { s with
        m := recordAfterLoad hdr (byteAt ext 1 ++ byteAt ext 0) ext (writePieces [] (piecesOf s.cfg.unknownPage bs)),
        result := .none } :=
  exec_load_of_parseImage hready (parseImage_extendedImage hhdr hlayout h6 h7 hext hpc hblocks)

end

/-! ### The pieces of the blocks (R224 to R226). -/

theorem piecesOf_append (policy : PagePolicy) (bs cs : List PageBlock) :
    piecesOf policy (bs ++ cs) = piecesOf policy bs ++ piecesOf policy cs := List.filterMap_append

theorem piecesOf_cons_of_some {policy : PagePolicy} {b : PageBlock} {d : Nat} (h : pageAddr policy b.page = some d)
    (bs : List PageBlock) : piecesOf policy (b :: bs) = (d, b.data) :: piecesOf policy bs := by
  simp [piecesOf, h]

theorem piecesOf_cons_of_none {policy : PagePolicy} {b : PageBlock} (h : pageAddr policy b.page = none)
    (bs : List PageBlock) : piecesOf policy (b :: bs) = piecesOf policy bs := by
  simp [piecesOf, h]

theorem mem_piecesOf {policy : PagePolicy} {bs : List PageBlock} {p : Nat × List Byte} :
    p ∈ piecesOf policy bs ↔ ∃ b ∈ bs, pageAddr policy b.page = some p.1 ∧ b.data = p.2 := by
  simp [piecesOf, List.mem_filterMap, Prod.ext_iff]

/-- Blocks of at most a page stay inside the address space. -/
theorem piecesOf_fit {policy : PagePolicy} {bs : List PageBlock} (h : ∀ b ∈ bs, b.data.length ≤ 16384) :
    ∀ p ∈ piecesOf policy bs, p.1 + p.2.length ≤ 65536 := by
  intro p hp
  obtain ⟨b, hb, haddr, hdata⟩ := mem_piecesOf.mp hp
  have hpage := pageAddr_le haddr
  have hlength := h b hb
  rw [hdata] at hlength
  omega

/-- Where no block covers an address, no piece does. -/
theorem piecesOf_not_covered {policy : PagePolicy} {bs : List PageBlock} {x : Nat} (h : ∀ b ∈ bs, ¬b.covers policy x) :
    ∀ p ∈ piecesOf policy bs, ¬pieceCovers p x := by
  intro p hp hcovers
  obtain ⟨b, hb, haddr, hdata⟩ := mem_piecesOf.mp hp
  refine h b hb ⟨p.1, haddr, ?_⟩
  rw [hdata]
  exact hcovers

/-! ### One block. -/

theorem pageBlocks_single {l0 l1 page : Byte} {body data : List Byte}
    (h : blockData (l1 ++ l0) body = some (data, [])) :
    pageBlocks .standard ([l0, l1, page] ++ body).length ([l0, l1, page] ++ body) =
      some [{ page := page, data := data }] := by
  show pageBlocks .standard (body.length + 2 + 1) (l0 :: l1 :: page :: body) = _
  rw [pageBlocks_succ, h, Option.bind_some, pageBlocks_nil, Option.map_some]

/-- Memory after one block: its data from the page's address up, zeros elsewhere. -/
theorem memRead_single_block {policy : PagePolicy} {page : Byte} {data : List Byte} (hdata : data.length ≤ 16384)
    {d : Nat} (hd : pageAddr policy page = some d) {x : Nat} (hx : x < 65536) :
    memRead (writePieces [] (piecesOf policy [{ page := page, data := data }])) x =
      if d ≤ x ∧ x < d + data.length then byteAt data (x - d) else 0 := by
  have hpage := pageAddr_le hd
  rw [piecesOf_cons_of_some hd]
  exact memRead_single_piece (d := data) (by omega) hx

/-- The three mapped pages. -/
theorem pageAddr_mapped (policy : PagePolicy) {page : Byte} {dest : Nat}
    (h : (page, dest) ∈ [((4 : Byte), 0x8000), (5, 0xC000), (8, 0x4000)]) : pageAddr policy page = some dest := by
  simp only [List.mem_cons, Prod.mk.injEq, List.not_mem_nil, or_false] at h
  rcases h with ⟨rfl, rfl⟩ | ⟨rfl, rfl⟩ | ⟨rfl, rfl⟩ <;> rfl

/-- Settles O34: the image's one block is a mapped page's. -/
theorem pagesLoadAtMappedAddresses : Obligations.PagesLoadAtMappedAddresses := by
  intro s hdr ext body data e0 e1 l0 l1 page dest hready hlayout hhdr h6 h7 hext hpc hblock hmapped
  have hexec := exec_load_extendedImage hhdr hready hlayout h6 h7 hext hpc (pageBlocks_single (page := page) hblock)
  rw [extendedImage, ← List.append_assoc] at hexec
  exact ⟨_, hexec, rfl, fun a ha =>
    memRead_single_block (blockData_eq_some hblock).1 (pageAddr_mapped _ hmapped) ha⟩

/-- A page that is neither mapped nor page 0 loads at address 0 under LOAD_AT_0. -/
theorem pageAddr_loadAt0_of_unknown {page : Byte} (h0 : page ≠ 0) (h4 : page ≠ 4) (h5 : page ≠ 5) (h8 : page ≠ 8) :
    pageAddr .loadAt0 page = some 0 := by
  unfold pageAddr
  split
  next h => exact absurd (BitVec.eq_of_toNat_eq h) h0
  next h => exact absurd (BitVec.eq_of_toNat_eq h) h4
  next h => exact absurd (BitVec.eq_of_toNat_eq h) h5
  next h => exact absurd (BitVec.eq_of_toNat_eq h) h8
  next => rfl

/-- A page that is not mapped is ignored under SKIP. -/
theorem pageAddr_skip_of_unmapped {page : Byte} (h4 : page ≠ 4) (h5 : page ≠ 5) (h8 : page ≠ 8) :
    pageAddr .skip page = none := by
  unfold pageAddr
  split
  next => rfl
  next h => exact absurd (BitVec.eq_of_toNat_eq h) h4
  next h => exact absurd (BitVec.eq_of_toNat_eq h) h5
  next h => exact absurd (BitVec.eq_of_toNat_eq h) h8
  next => rfl

theorem pageAddr_zero (policy : PagePolicy) : pageAddr policy 0 = none := rfl

/-- Memory after one block of a page that is ignored. -/
theorem memRead_ignored_block {policy : PagePolicy} {page : Byte} (h : pageAddr policy page = none) (data : List Byte)
    (x : Nat) : memRead (writePieces [] (piecesOf policy [{ page := page, data := data }])) x = 0 := by
  rw [piecesOf_cons_of_none h]
  rfl

/-- Memory after one block of an unmapped page. -/
theorem memRead_unmapped_block (policy : PagePolicy) {page : Byte} {data : List Byte} (hdata : data.length ≤ 16384)
    (h4 : page ≠ 4) (h5 : page ≠ 5) (h8 : page ≠ 8) {x : Nat} (hx : x < 65536) :
    memRead (writePieces [] (piecesOf policy [{ page := page, data := data }])) x =
      if page ≠ 0 ∧ policy = .loadAt0 ∧ x < data.length then byteAt data x else 0 := by
  by_cases h0 : page = 0
  case pos =>
    subst h0
    rw [memRead_ignored_block (pageAddr_zero policy), if_neg (fun h => h.1 rfl)]
  case neg =>
    cases policy with
    | loadAt0 =>
      rw [memRead_single_block hdata (pageAddr_loadAt0_of_unknown h0 h4 h5 h8) hx]
      exact if_congr ⟨fun h => ⟨h0, rfl, by omega⟩, fun ⟨_, _, h⟩ => ⟨Nat.zero_le x, by omega⟩⟩ rfl rfl
    | skip => rw [memRead_ignored_block (pageAddr_skip_of_unmapped h4 h5 h8), if_neg (fun h => nomatch h.2.1)]

/-- Settles O35: page 0 gives no piece, and any other unmapped page one at address 0 or none. -/
theorem otherPagesFollowPolicy : Obligations.OtherPagesFollowPolicy := by
  intro s hdr ext body data e0 e1 l0 l1 page hready hlayout hhdr h6 h7 hext hpc hblock h4 h5 h8
  have hexec := exec_load_extendedImage hhdr hready hlayout h6 h7 hext hpc (pageBlocks_single (page := page) hblock)
  rw [extendedImage, ← List.append_assoc] at hexec
  exact ⟨_, hexec, rfl, fun a ha => memRead_unmapped_block _ (blockData_eq_some hblock).1 h4 h5 h8 ha⟩

/-! ### Any number of blocks. -/

/-- A stream that expands is accepted exactly within its bound. -/
theorem rleUpTo_of_rle {classic : Bool} {cap : Nat} {src out : List Byte} (h : rle classic src = some out) :
    rleUpTo classic cap src = if out.length ≤ cap then some out else none := by
  simp [rleUpTo, h, Option.filter_some]

theorem rleUpTo_of_rle_none {classic : Bool} {cap : Nat} {src : List Byte} (h : rle classic src = none) :
    rleUpTo classic cap src = none := by
  rw [rleUpTo, h, Option.filter_none]

/-- A block's length field that is not that of a raw block. -/
theorem length_word_ne {l0 l1 : Byte} (h : l0.toNat + 256 * l1.toNat ≠ 0xFFFF) : (l1 ++ l0 : Word) ≠ 0xFFFF#16 :=
  fun hword => h ((toNat_word l1 l0).symm.trans (congrArg BitVec.toNat hword))

/-- The walk over a compressed block: its expansion must fit a page. -/
theorem pageBlocks_compressed (fuel : Nat) {l0 l1 page : Byte} {body rest : List Byte}
    (hlen : l0.toNat + 256 * l1.toNat ≠ 0xFFFF) (hbody : body.length = l0.toNat + 256 * l1.toNat) :
    pageBlocks .standard (fuel + 1) (l0 :: l1 :: page :: (body ++ rest)) =
      (rleUpTo false 16384 body).bind fun out =>
        (pageBlocks .standard fuel rest).map ({ page := page, data := out } :: ·) := by
  rw [pageBlocks_succ, blockData_compressed (length_word_ne hlen) (hbody.trans (toNat_word l1 l0).symm),
    Option.bind_map]
  rfl

/-- Memory after the load of blocks: the last block that covers an address gives its byte. -/
theorem memRead_blocks_of_last {policy : PagePolicy} {pre post : List PageBlock} {b : PageBlock} {d x : Nat}
    (hfit : ∀ c ∈ pre ++ b :: post, c.data.length ≤ 16384) (hd : pageAddr policy b.page = some d) (hlow : d ≤ x)
    (hhigh : x < d + b.data.length) (hpost : ∀ c ∈ post, ¬c.covers policy x) :
    memRead (writePieces [] (piecesOf policy (pre ++ b :: post))) x = byteAt b.data (x - d) := by
  have hpage := pageAddr_le hd
  have hlength := hfit b (by simp)
  have hfit' := piecesOf_fit (policy := policy) hfit
  rw [piecesOf_append, piecesOf_cons_of_some hd] at hfit' ⊢
  exact memRead_writePieces_of_last rfl (fun q hq => hfit' q (List.mem_append_right _ hq)) (by omega) ⟨hlow, hhigh⟩
    (piecesOf_not_covered hpost)

/-- Settles O36: the walk by its equations; a LOAD writes the blocks' pieces in order, and of those that cover an
address the last one stays. -/
theorem blockWalkTakesBlocksInOrder : Obligations.BlockWalkTakesBlocksInOrder := by
  refine ⟨pageBlocks_nil _, fun fuel src hne hlt => pageBlocks_of_short hne hlt fuel,
    fun fuel l0 l1 page body rest => ⟨fun hlen hbody => ?compressed, fun hbody => ?raw, fun hlen hshort => ?short,
      fun hshort => ?rawShort⟩,
    fun fuel src h => pageBlocks_fuel h le_rfl, ?load⟩
  case compressed =>
    rw [pageBlocks_compressed fuel hlen hbody]
    cases hrle : rle false body with
    | none => rw [rleUpTo_of_rle_none hrle, Option.bind_none]
    | some out =>
      rw [rleUpTo_of_rle hrle]
      by_cases hfit : out.length ≤ 16384
      · rw [if_pos hfit, Option.bind_some]
        exact (if_pos hfit).symm
      · rw [if_neg hfit, Option.bind_none]
        exact (if_neg hfit).symm
  case raw =>
    rw [pageBlocks_succ]
    show (blockData 0xFFFF#16 _).bind _ = _
    rw [blockData_raw hbody, Option.bind_some]
  case short =>
    exact pageBlocks_of_blockData_none
      (blockData_compressed_short (length_word_ne hlen) (hshort.trans_eq (toNat_word l1 l0).symm)) fuel
  case rawShort => exact pageBlocks_of_blockData_none (blockData_raw_short hshort) fuel
  case load =>
    intro s hdr ext src e0 e1 bs hready hlayout hhdr h6 h7 hext hpc hblocks
    refine ⟨_, exec_load_extendedImage hhdr hready hlayout h6 h7 hext hpc hblocks, rfl, ?covered,
      fun a ha hnone => ?zero⟩
    case covered =>
      rintro pre post b d a rfl hd hlow hhigh hpost
      exact memRead_blocks_of_last (length_le_of_mem_pageBlocks hblocks) hd hlow hhigh hpost
    case zero =>
      exact memRead_writePieces_of_not_covered rfl (piecesOf_fit (length_le_of_mem_pageBlocks hblocks)) ha
        (piecesOf_not_covered hnone)

end Sys2Proof.Machine
end
